-- ==== Sys2Proof/Word.lean ====
section
/-! DEFINITION. The bit vectors the spec names and the bit numbering of rule R4. -/

namespace Sys2Proof

/-- An EncryptedWord, a PlainWord or a mask of bit positions (R53, R57). -/
abbrev Word := BitVec 32

/-- A load address, a file offset or an index of a word (R30, R38, R18). -/
abbrev Addr := BitVec 64

/-- A local value gathered for one group, and the data of a ROM entry (R12, R70). -/
abbrev Nibble := BitVec 4

/-- One byte of the host's buffer (R33). -/
abbrev Byte := BitVec 8

/-- The command word `CW[65:0]` of rule R50. -/
abbrev CommandWord := BitVec 66

/-- `bit(w, p)` of R4: the binary digit of weight `2^p`; position 0 is the least significant. -/
def bit {n : Nat} (w : BitVec n) (p : Nat) : Bool := w.getLsbD p

/-- A single digit `b` at position `p`, zeros elsewhere: `b << p` of R5. -/
def bitAt (n : Nat) (b : Bool) (p : Nat) : BitVec n := (BitVec.ofBool b).setWidth n <<< p

/-- `OR` of a list of values (R5). -/
def orAll {n : Nat} : List (BitVec n) → BitVec n
  | [] => 0
  | x :: xs => x ||| orAll xs

end Sys2Proof
end

