-- ==== Sys2Proof/Config.lean ====
section
/-! DEFINITION. The configuration of R3: the BitGroup wiring and the S-box ROMs, the host's constants, and the free
values that stand for the tables no source gives. -/

namespace Sys2Proof

/-- One entry of a SubstitutionTable: the sum type of R12. -/
inductive Entry where
  | resolved (s : Nibble)
  | unresolved
deriving DecidableEq, Repr, Inhabited

/-- The shape of GROUP (R10): 8 ordered lists of 4 bit positions. -/
abbrev GroupTable := Vector (Vector (Fin 32) 4) 8

/-- The shape of SBOX (R12): 8 tables of 16 entries. -/
abbrev SboxTable := Vector (Vector Entry 16) 8

/-- The partition invariant of R11: the 32 values `GROUP[j][k]` are pairwise distinct. -/
abbrev GroupTable.Partition (g : GroupTable) : Prop :=
  ∀ (j j' : Fin 8) (k k' : Fin 4), g[j][k] = g[j'][k'] → j = j' ∧ k = k'

/-- A symbol's name, as the metadata reader gives it (R116, R126). -/
abbrev SymName := List Char

/-- A configuration (R3). It carries the invariant of R11 as a proof field, so a GROUP that fails it is no configuration. -/
structure Config where
  group : GroupTable
  sbox : SboxTable
  markerName : SymName
  partition : group.Partition
deriving DecidableEq, Repr

/-- `GROUP[j][k]` (R10). -/
def Config.pos (c : Config) (j : Fin 8) (k : Fin 4) : Fin 32 := c.group[j][k]

/-- FREE VALUE (assumption 2): the wiring of the device, of which R10 and R11 say only that it is a bijection. -/
opaque Config.chipWiring : Equiv.Perm (Fin 32)

/-- FREE VALUE (assumption 2): the ROM contents of the device (R12). -/
opaque Config.chipSbox : SboxTable

/-- FREE VALUE (assumptions 2, 24): the MARKER_NAME of the scheme (R116). -/
opaque Config.chipMarkerName : SymName

/-- GROUP read off a permutation of the 32 positions: `GROUP[j][k]` is the image of `4*j + k`. -/
def GroupTable.ofPerm (f : Equiv.Perm (Fin 32)) : GroupTable :=
  Vector.ofFn fun j : Fin 8 => Vector.ofFn fun k : Fin 4 => f ⟨4 * j.val + k.val, by omega⟩

theorem GroupTable.ofPerm_partition (f : Equiv.Perm (Fin 32)) : (GroupTable.ofPerm f).Partition := by
  intro j j' k k' h
  have h2 : (⟨4 * j.val + k.val, by omega⟩ : Fin 32) = ⟨4 * j'.val + k'.val, by omega⟩ := by
    simpa [GroupTable.ofPerm] using h
  have h3 := congrArg Fin.val h2
  simp only at h3
  constructor <;> apply Fin.ext <;> omega

/-- The configuration of the device: R11 holds of it and nothing else is known (assumption 2). -/
def Config.chip : Config where
  group := GroupTable.ofPerm Config.chipWiring
  sbox := Config.chipSbox
  markerName := Config.chipMarkerName
  partition := GroupTable.ofPerm_partition Config.chipWiring

/-- REGION_LEN (R3, R115). -/
def regionLen : Addr := 0x2000

/-- DELTA_MARKED (R3, R118). -/
def deltaMarked : Addr := 0x1b00

/-- DELTA_UNMARKED (R3, R118). -/
def deltaUnmarked : Addr := 0x1fc

end Sys2Proof
end

