-- ==== Sys2Proof/Syntax.lean ====
section
/-! DEFINITION. The commands of the block (30_encoding.md), what the host can present at the block's inputs, and the
command lines of R62. -/

namespace Sys2Proof

/-- The commands, one constructor per row of the command table (R51). Operand bits a command ignores (R61) are kept, so
that no bit of a command word is lost; no meaning reads them. -/
inductive Instr where
  /-- `cmd = 00`; `din` ignored (R90). -/
  | idle (din : BitVec 64)
  /-- `cmd = 01`; `a = din[63:0]` is `base_addr` (R91). -/
  | setbase (a : Addr)
  /-- `cmd = 10`; `w = din[31:0]` is the encrypted word, `hi = din[63:32]` is ignored (R92). -/
  | descr (hi w : Word)
  /-- `cmd = 11`, reserved; `din` ignored (R93). -/
  | rsvd (din : BitVec 64)
deriving DecidableEq, Repr

/-- What the host presents to the block: the `rst` pin or a command word on the command port (R50). -/
inductive PortInput where
  | rst
  | command (cw : CommandWord)
deriving DecidableEq, Repr

/-- A command line of R62, with its numbers as written. -/
inductive Line where
  | idle
  | setbase (a : Nat)
  | descr (w : Nat)
  | rsvd
  | reset
  /-- The pseudo-instruction `descramble A, W0, ..., Wn-1`. -/
  | descramble (a : Nat) (ws : List Nat)
deriving DecidableEq, Repr

end Sys2Proof
end

