-- ==== Sys2Proof/WellFormed.lean ====
section
/-! DEFINITION. What is well formed: commands, command lines, GROUP tables. -/

namespace Sys2Proof

/-- Every command is well formed: each `cmd` takes any 64 bits of `din` (R61, R91, R92), and the types hold the widths. -/
def Instr.WellFormed : Instr → Bool
  | .idle _ => true
  | .setbase _ => true
  | .descr _ _ => true
  | .rsvd _ => true

/-- The bounds R62 puts on the numbers of a line: `A < 2^64`, `W < 2^32`. -/
def Line.WellFormed : Line → Bool
  | .idle => true
  | .setbase a => decide (a < 2 ^ 64)
  | .descr w => decide (w < 2 ^ 32)
  | .rsvd => true
  | .reset => true
  | .descramble a ws => decide (a < 2 ^ 64) && ws.all fun w => decide (w < 2 ^ 32)

/-- R11 as a check: a table that fails it belongs to no `Config`. -/
def GroupTable.wellFormed (g : GroupTable) : Bool := decide g.Partition

end Sys2Proof
end

