-- ==== Sys2Proof/Decode.lean ====
section
/-! DEFINITION. Decoding and encoding: command words (R50, R51), ROM entries (R54, R60) and the lines of R62. -/

namespace Sys2Proof

/-- The command of a command word: `cmd = CW[65:64]` selects it (R51), `din = CW[63:0]` is its operand (R58). -/
def decode (cw : CommandWord) : Instr :=
  let cmd := cw.extractLsb' 64 2
  let din := cw.extractLsb' 0 64
  if cmd = 0b00#2 then .idle din
  else if cmd = 0b01#2 then .setbase din
  else if cmd = 0b10#2 then .descr (din.extractLsb' 32 32) (din.extractLsb' 0 32)
  else .rsvd din

/-- Why a number is no command word. -/
inductive DecodeError where
  /-- It has a digit above position 65 (R50). -/
  | tooWide
deriving DecidableEq, Repr

/-- A number read as a command word: refused by name when it does not fit in 66 bits (R50). -/
def commandWord (w : Nat) : Except DecodeError CommandWord :=
  if w < 2 ^ 66 then .ok (BitVec.ofNat 66 w) else .error .tooWide

/-- The command a number stands for. -/
def decodeNat (w : Nat) : Except DecodeError Instr :=
  match commandWord w with
  | .ok cw => .ok (decode cw)
  | .error e => .error e

/-- The command of an opcode-table word. The one word of a command has 66 bits; every bit above the `_nbits` given is 0
in `w` already, so only `w` counts. -/
def decodeTableWord (_nbits w : Nat) : Option Instr :=
  match decodeNat w with
  | .ok i => some i
  | .error _ => none

/-- The code of a command in `cmd` (R51). -/
def Instr.cmd : Instr → BitVec 2
  | .idle _ => 0b00
  | .setbase _ => 0b01
  | .descr _ _ => 0b10
  | .rsvd _ => 0b11

/-- The operand of a command in `din` (R51). -/
def Instr.din : Instr → BitVec 64
  | .idle d => d
  | .setbase a => a
  | .descr hi w => hi ++ w
  | .rsvd d => d

/-- The command word `{cmd, din}` of a command (R50). -/
def encode (i : Instr) : CommandWord := i.cmd ++ i.din

/-- A ROM entry from its pattern `E[4:0] = {u, s[3:0]}`: the tag alone decides (R54, R60). -/
def Entry.ofPattern (e : BitVec 5) : Entry :=
  if bit e 4 then .unresolved else .resolved (e.extractLsb' 0 4)

/-- The canonical pattern of a ROM entry (R54). -/
def Entry.toPattern : Entry → BitVec 5
  | .resolved s => 0#1 ++ s
  | .unresolved => 0x10

/-- The command word of `descr W` (R62): `din = zext_64(W)`. -/
def descrWord (w : Word) : CommandWord := encode (.descr 0 w)

/-- The command word of `setbase A` (R62). -/
def setbaseWord (a : Addr) : CommandWord := encode (.setbase a)

/-- The call `descramble(words, base_addr)` as a command sequence (R62, R98). -/
def descrambleInputs (a : Addr) (ws : List Word) : List PortInput :=
  .command (setbaseWord a) :: ws.map fun w => .command (descrWord w)

/-- What a line presents to the block (R62). -/
def Line.expand : Line → List PortInput
  | .idle => [.command (encode (.idle 0))]
  | .setbase a => [.command (setbaseWord (BitVec.ofNat 64 a))]
  | .descr w => [.command (descrWord (BitVec.ofNat 32 w))]
  | .rsvd => [.command (encode (.rsvd 0))]
  | .reset => [.rst]
  | .descramble a ws => descrambleInputs (BitVec.ofNat 64 a) (ws.map (BitVec.ofNat 32))

end Sys2Proof
end

