-- ==== Sys2Proof/Machine/Operands.lean ====
section
/-! DEFINITION. Operand assembly: the gather wiring, the S-box ROM lookup and the scatter wiring (R58, R70 to R75). -/

namespace Sys2Proof.Machine

/-- The group indices 0..7 (R10). -/
def groups : List (Fin 8) := [0, 1, 2, 3, 4, 5, 6, 7]

/-- The indices 0..3 of the positions of a group (R10). -/
def slots : List (Fin 4) := [0, 1, 2, 3]

/-- `GATHER(w, j)` (R70): bit `k` of the result is bit `GROUP[j][k]` of `w`. -/
def gather (c : Config) (w : Word) (j : Fin 8) : Nibble :=
  orAll (slots.map fun k : Fin 4 => bitAt 4 (bit w (c.pos j k).val) k.val)

/-- `SLOOKUP(j, v)` (R72): entry `v` of ROM `j`. -/
def slookup (c : Config) (j : Fin 8) (v : Nibble) : Entry := c.sbox[j][v.toNat]'v.isLt

/-- `SCATTER(j, s)` (R75): bit `k` of `s` goes to position `GROUP[j][k]`. -/
def scatter (c : Config) (j : Fin 8) (s : Nibble) : Word :=
  orAll (slots.map fun k : Fin 4 => bitAt 32 (bit s k.val) (c.pos j k).val)

/-- `GMASK[j]` (R15): the four positions of group `j`. -/
def gmask (c : Config) (j : Fin 8) : Word := orAll (slots.map fun k : Fin 4 => bitAt 32 true (c.pos j k).val)

/-- The entry `e_j` group `j` of `w` selects (R76). -/
def laneEntry (c : Config) (w : Word) (j : Fin 8) : Entry := slookup c j (gather c w j)

/-- The 7-bit index `{j[2:0], v[3:0]}` of a ROM entry (R30, R55). -/
def romIndex (j : Fin 8) (v : Nibble) : BitVec 7 := BitVec.ofNat 3 j ++ v

/-- The entry at a 7-bit index of the S-box ROM space (R31). -/
def romAt (c : Config) (a : BitVec 7) : Entry :=
  slookup c (a.extractLsb' 4 3).toFin (a.extractLsb' 0 4)

end Sys2Proof.Machine
end

