-- ==== Sys2Proof/Machine/Flags.lean ====
section
/-! DEFINITION. The comparator and the flags of a word: UCMP, GU, the unresolved mask and ANYU (R20, R73, R74, R78).
None is stored. -/

namespace Sys2Proof.Machine

/-- `UCMP(e)` (R73): whether an entry is the unresolved marker. -/
def ucmp : Entry → Bool
  | .unresolved => true
  | .resolved _ => false

/-- `GUW(w)` (R74): bit `j` says that group `j` of `w` is unresolved. -/
def guw (c : Config) (w : Word) : BitVec 8 :=
  orAll (groups.map fun j : Fin 8 => bitAt 8 (ucmp (laneEntry c w j)) j.val)

/-- `M_j(w)` (R76). -/
def laneMask (c : Config) (w : Word) (j : Fin 8) : Word :=
  match laneEntry c w j with
  | .resolved _ => 0
  | .unresolved => gmask c j

/-- `UNRESW(w)` (R78): the mask of the unresolved positions. -/
def unresw (c : Config) (w : Word) : Word := orAll (groups.map (laneMask c w))

/-- `ANYU(w)` (R78): whether any position is unresolved. -/
def anyu (c : Config) (w : Word) : Bool := unresw c w != 0

/-- The union of the GMASKs of the groups whose bit is set in a GU vector (R78). -/
def maskOfGroups (c : Config) (g : BitVec 8) : Word :=
  orAll (groups.map fun j : Fin 8 => if bit g j.val then gmask c j else 0)

end Sys2Proof.Machine
end

