-- ==== Sys2Proof/Machine/Datapath.lean ====
section
/-! DEFINITION. The datapath: lanes, the plaintext word, DWORD (R76, R77, R85), and the other readings the spec gives of
them: INV and the mux-tree form (R14, R79), a set of positions as a mask (R57). -/

namespace Sys2Proof.Machine

/-- `P_j(w)` (R76). -/
def lanePlain (c : Config) (w : Word) (j : Fin 8) : Word :=
  match laneEntry c w j with
  | .resolved s => scatter c j s
  | .unresolved => 0

/-- `PLAINW(w)` (R77). -/
def plainw (c : Config) (w : Word) : Word := orAll (groups.map (lanePlain c w))

/-- The tuple of R85. -/
structure DWord where
  plain : Word
  unres : Word
  gu : BitVec 8
  any : Bool
deriving DecidableEq, Repr

/-- `DWORD(w)` (R85). -/
def dword (c : Config) (w : Word) : DWord :=
  { plain := plainw c w, unres := unresw c w, gu := guw c w, any := anyu c w }

/-- `INV(p)` (R14): the pair `(j, k)` with `GROUP[j][k] = p`. -/
def inv (c : Config) (p : Fin 32) : Fin 8 × Fin 4 :=
  ((groups.flatMap fun j => slots.map fun k => (j, k)).find? fun q => c.pos q.1 q.2 == p).getD (0, 0)

/-- Output bit `p` of the mux tree (R79). -/
def muxPlainBit (c : Config) (w : Word) (p : Fin 32) : Bool :=
  match laneEntry c w (inv c p).1 with
  | .resolved s => bit s (inv c p).2.val
  | .unresolved => false

/-- Bit `p` of the unresolved mask in the mux-tree form (R79). -/
def muxUnresBit (c : Config) (w : Word) (p : Fin 32) : Bool := ucmp (laneEntry c w (inv c p).1)

/-- The set of positions a mask stands for, in rising order (R57). -/
def maskToSet (m : Word) : List (Fin 32) := (List.finRange 32).filter fun p : Fin 32 => bit m p.val

/-- The mask of a set of positions (R57). -/
def setToMask (ps : List (Fin 32)) : Word := orAll (ps.map fun p : Fin 32 => bitAt 32 true p.val)

end Sys2Proof.Machine
end

