-- ==== Sys2Proof/Machine/State.lean ====
section
/-! DEFINITION. The state: the block's registers and logs, the command port, and the host's driver with its byte buffer. -/

namespace Sys2Proof.Machine

/-- The host's fatal errors (R130), each ending the run. -/
inductive Fault where
  /-- Raised by the metadata reader before any region is computed (R131). Safe: the source ends the run there. -/
  | malformedBinary
  /-- Raised by LOCATE when no loadable segment has a positive on-disk size (R132). Safe: the source ends the run there. -/
  | noLoadableSegment
  /-- Raised by READWORDS when fewer than `length` bytes are available at `file_offset` (R133), and by a SPLICE past the
  end of the buffer, which no run reaches (assumption 13). Safe: the source ends the run at a failed read or write. -/
  | truncatedFile
deriving DecidableEq, Repr

/-- Where the model gives a step no meaning (R135, R136). -/
inductive Refusal where
  /-- Raised by DESCR while BV = 0 (R94). Safe: nothing can be claimed of such a run. -/
  | baseUnset
  /-- Raised by RSVD, `cmd = 11` (R93). Safe: nothing can be claimed of such a run. -/
  | reservedCommand
  /-- Raised by nothing: the host's interface fixes this constructor for an arm of `exec` without a meaning, and no arm is
  left without one. It is not one of the refusal reasons of R136 (assumption 28). Safe. -/
  | notModelled (mnemonic : String)
deriving DecidableEq, Repr

/-- The names of R130, exactly: the three fatal errors, the unresolved condition of a group, the two refusal reasons.
`Fault` and `Refusal` are the outcomes of a step that has no next state; this is the spec's taxonomy over all of them. -/
inductive Cause where
  | malformedBinary
  | noLoadableSegment
  | truncatedFile
  | unresolvedBitGroup
  | baseUnset
  | reservedCommand
deriving DecidableEq, Repr

/-- The column "side" of R130's table. -/
inductive Side where
  | host
  | block
  | model
deriving DecidableEq, Repr

/-- A diagnostic record (R22, R56); the set of unresolved positions is carried as a mask (R57). -/
structure DiagRec where
  address : Addr
  plainPartial : Word
  unresolved : Word
deriving DecidableEq, Repr

/-- A byte buffer (R33): the bytes at offsets `0 .. size-1`. A byte that is not listed in `cells` is 0 (assumption 14).
The spec bounds no buffer: that `size` may pass 2^64, the reach of a 64-bit file offset, is the model's choice
(assumption 27). -/
structure Memory where
  size : Nat
  cells : List Host.Cell
deriving DecidableEq, Repr

/-- The canonical form of a buffer: offsets strictly rising, all inside the buffer, no zero listed. -/
abbrev Memory.wf (m : Memory) : Prop :=
  m.cells.Pairwise (fun x y => x.1 < y.1) ∧ ∀ x ∈ m.cells, x.1 < m.size ∧ x.2 ≠ 0

/-- A loadable segment as the metadata reader gives it (R126). -/
structure Segment where
  physicalAddress : Addr
  fileOffset : Addr
  fileSize : Addr
deriving DecidableEq, Repr

/-- The metadata reader's answer (R126): `MalformedBinary`, or the symbol table if there is one (its symbols' names) and
the loadable segments in the reader's order. -/
inductive Metadata where
  | malformed
  | parsed (symbols : Option (List SymName)) (segments : List Segment)
deriving DecidableEq, Repr

/-- A Region (R115). LOCATE gives every one the length 0x2000 (R119); what the model does with another length, a number that
is no multiple of 4 among them, is its own choice (assumption 29). -/
structure Region where
  paddr : Addr
  fileOffset : Addr
  length : Addr
deriving DecidableEq, Repr

/-- Where the host stands in the order of R154, with what it holds for the stages to come. -/
inductive Stage where
  /-- No image was given: the host does nothing of its own. -/
  | noImage
  /-- Step (1): read the whole input file. -/
  | load (file : Memory) (answer : Metadata)
  /-- Step (2): parse the metadata. -/
  | parse (answer : Metadata)
  /-- Step (3): LOCATE. -/
  | locate (symbols : Option (List SymName)) (segments : List Segment)
  /-- Step (4): READWORDS. -/
  | readWords (region : Region)
  /-- Step (5): DRIVE, present reset, SETBASE and every DESCR. -/
  | drive (region : Region) (words : List Word)
  /-- Step (6): SPLICE, once the block has taken all that was presented. -/
  | splice (region : Region)
  /-- Step (7): write the buffer to the destination. -/
  | write
  /-- Step (8): one text line per record. -/
  | report
  /-- The run is over. -/
  | done
deriving DecidableEq, Repr

/-- The host's driver (R2, R6): its stage, its byte buffer, the output file (none where there is no such file) and the text
lines it has emitted. -/
structure Driver where
  stage : Stage
  buffer : Memory
  destination : Option Memory
  sink : List (List Char)
deriving DecidableEq, Repr

/-- The state. `base` holds BASE and BV together: BV is 1 exactly when it is `some` (R17, assumption 5). `cfg` is the
configuration argument of the step relation (R3, assumption 1). `port` is what the host has presented and the block has
not yet taken, oldest first (assumption 3). -/
structure State where
  cfg : Config
  base : Option Addr
  idx : Addr
  outlog : List Word
  diaglog : List DiagRec
  port : List PortInput
  driver : Driver
deriving DecidableEq, Repr

/-- A buffer of no bytes. -/
def Memory.empty : Memory := { size := 0, cells := [] }

/-- A host to which no image was given (assumption 9). -/
def Driver.initial : Driver := { stage := .noImage, buffer := Memory.empty, destination := none, sink := [] }

/-- R25: BV = 0, BASE without a value, IDX = 0, both logs empty; the configuration is the device's, of which nothing but
R11 is known (assumption 2). Nothing is presented at the port and the host has no image (assumptions 3, 9). -/
def State.reset : State :=
  { cfg := Config.chip, base := none, idx := 0, outlog := [], diaglog := [], port := [], driver := Driver.initial }

end Sys2Proof.Machine
end

