-- ==== Sys2Proof/Machine/Ops.lean ====
section
/-! DEFINITION. The named operations on the block's registers, ports and logs (10_state.md, R38, R52, R95). The block has
no exception to enter and none to return from (R140, R142): RESET is its one system operation. -/

namespace Sys2Proof.Machine

/-- BV (R17). -/
def State.bv (s : State) : Bool := s.base.isSome

/-- `BASE <- a; BV <- 1; IDX <- 0` (R91). -/
def State.startSequence (s : State) (a : Addr) : State := { s with base := some a, idx := 0 }

/-- ADDR of a base and an index (R38), modulo 2^64. -/
def addrOf (base idx : Addr) : Addr := base + 4 * idx

/-- `emit_out(p)` (R5, R21). -/
def State.emitOut (s : State) (p : Word) : State := { s with outlog := s.outlog ++ [p] }

/-- `emit_diag(r)` (R5, R22). -/
def State.emitDiag (s : State) (r : DiagRec) : State := { s with diaglog := s.diaglog ++ [r] }

/-- `IDX <- IDX +_64 1` (R18). -/
def State.advance (s : State) : State := { s with idx := s.idx + 1 }

/-- RESET (R95, R150): the block's registers and logs; not the configuration, not the host. -/
def State.applyReset (s : State) : State := { s with base := none, idx := 0, outlog := [], diaglog := [] }

/-- The output ports in the step of an admitted DESCR (R52). -/
structure OutPorts where
  plain : Word
  unres : Word
  gu : BitVec 8
  diagValid : Bool
  diagAddr : Addr
deriving DecidableEq, Repr

/-- What an admitted DESCR of `w` puts on the ports, from the old BASE and IDX (R52, R92). -/
def descrPorts (c : Config) (base idx : Addr) (w : Word) : OutPorts :=
  let d := dword c w
  { plain := d.plain, unres := d.unres, gu := d.gu, diagValid := d.any, diagAddr := addrOf base idx }

/-- The record of a step whose `diag_valid` is 1 (R52, R56, R105). -/
def OutPorts.record (p : OutPorts) : DiagRec :=
  { address := p.diagAddr, plainPartial := p.plain, unresolved := p.unres }

/-- The logs after a DESCR step: the word, and the record iff `diag_valid` is 1 (R92, R105, R140). -/
def State.emit (s : State) (p : OutPorts) : State :=
  if p.diagValid then (s.emitOut p.plain).emitDiag p.record else s.emitOut p.plain

/-- The output ports in the step of a command: absent but in an admitted DESCR (R23, R52). -/
def outPorts (i : Instr) (s : State) : Option OutPorts :=
  match i with
  | .idle _ => none
  | .setbase _ => none
  | .descr _ w => s.base.map fun b => descrPorts s.cfg b s.idx w
  | .rsvd _ => none

/-- The output events of R62. -/
inductive Event where
  | out (p : Word)
  | diag (r : DiagRec)
deriving DecidableEq, Repr

/-- The events of a command's step, in the order they are logged (R62, R92). -/
def events (i : Instr) (s : State) : List Event :=
  match outPorts i s with
  | none => []
  | some p => if p.diagValid then [.out p.plain, .diag p.record] else [.out p.plain]

/-- The 128-bit form of a record: `{address, plain_partial, unresolved}` (R56). -/
def DiagRec.pack (r : DiagRec) : BitVec 128 := (r.address ++ r.plainPartial) ++ r.unresolved

/-- The record of a 128-bit pattern (R56). -/
def DiagRec.unpack (b : BitVec 128) : DiagRec :=
  { address := b.extractLsb' 64 64, plainPartial := b.extractLsb' 32 32, unresolved := b.extractLsb' 0 32 }

/-- The port after the block has taken its oldest entry: `rest` is left (assumption 3). -/
def State.withPort (s : State) (rest : List PortInput) : State := { s with port := rest }

/-- The host presents more to the block, after what it has presented already (R99). -/
def State.present (s : State) (l : List PortInput) : State := { s with port := s.port ++ l }

end Sys2Proof.Machine
end

