-- ==== Sys2Proof/Machine/Command.lean ====
section
/-! DEFINITION. The meanings of the commands (41_commands.md). -/

namespace Sys2Proof.Machine

/-- IDLE (R90). -/
def execIdle (_din : BitVec 64) (s : State) : Host.Outcome State Fault Refusal := .next s

/-- SETBASE (R91). -/
def execSetbase (a : Addr) (s : State) : Host.Outcome State Fault Refusal := .next (s.startSequence a)

/-- DESCR (R92): with BV = 1 the word and its record are emitted and IDX advances; with BV = 0 it is refused (R94). -/
def execDescr (_hi w : Word) (s : State) : Host.Outcome State Fault Refusal :=
  match s.base with
  | none => .refused .baseUnset
  | some b => .next (s.emit (descrPorts s.cfg b s.idx w)).advance

/-- RSVD (R93): the reserved code is refused in every state. -/
def execRsvd (_din : BitVec 64) (_s : State) : Host.Outcome State Fault Refusal := .refused .reservedCommand

end Sys2Proof.Machine
end

