-- ==== Sys2Proof/Machine/Dispatch.lean ====
section
/-! DEFINITION. One arm per command (R96). -/

namespace Sys2Proof.Machine

def exec (i : Instr) (s : State) : Host.Outcome State Fault Refusal :=
  match i with
  | .idle din => Sys2Proof.Machine.execIdle din s
  | .setbase a => Sys2Proof.Machine.execSetbase a s
  | .descr hi w => Sys2Proof.Machine.execDescr hi w s
  | .rsvd din => Sys2Proof.Machine.execRsvd din s

end Sys2Proof.Machine
end

