-- ==== Sys2Proof/Machine/Buffer.lean ====
section
/-! DEFINITION. The host's byte buffer: one byte, one little-endian word, a run of words (R33 to R35, R39, R127). -/

namespace Sys2Proof.Machine

/-- The byte a list of cells gives an address; an address that is not listed is 0 (assumption 14). -/
def cellAt : List Host.Cell → Nat → Byte
  | [], _ => 0
  | x :: xs, a => if x.1 = a then x.2 else cellAt xs a

/-- A byte put into a list of cells, in the canonical form: rising addresses, a 0 is not listed. -/
def setCell : List Host.Cell → Nat → Byte → List Host.Cell
  | [], a, v => if v = 0 then [] else [(a, v)]
  | x :: xs, a, v =>
    if a < x.1 then (if v = 0 then x :: xs else (a, v) :: x :: xs)
    else if a = x.1 then (if v = 0 then xs else (a, v) :: xs)
    else x :: setCell xs a v

/-- The byte at an offset; none past the end of the buffer. -/
def Memory.readByte (m : Memory) (a : Nat) : Option Byte :=
  if a < m.size then some (cellAt m.cells a) else none

/-- A byte written at an offset; none past the end of the buffer. -/
def Memory.writeByte (m : Memory) (a : Nat) (v : Byte) : Option Memory :=
  if a < m.size then some { m with cells := setCell m.cells a v } else none

/-- `MemRead(off, 4)`: the byte at the lowest offset supplies positions 0..7 (R34). -/
def Memory.read32 (m : Memory) (off : Nat) : Option Word :=
  match m.readByte off, m.readByte (off + 1), m.readByte (off + 2), m.readByte (off + 3) with
  | some b0, some b1, some b2, some b3 => some ((b3 ++ b2) ++ (b1 ++ b0))
  | _, _, _, _ => none

/-- `MemWrite(off, 4, v)`: `v[7:0]` goes to the lowest offset (R35). -/
def Memory.write32 (m : Memory) (off : Nat) (v : Word) : Option Memory :=
  (m.writeByte off (v.extractLsb' 0 8)).bind fun m1 =>
  (m1.writeByte (off + 1) (v.extractLsb' 8 8)).bind fun m2 =>
  (m2.writeByte (off + 2) (v.extractLsb' 16 8)).bind fun m3 =>
  m3.writeByte (off + 3) (v.extractLsb' 24 8)

/-- `n` words read at `off`, `off + 4`, ... (R121). -/
def Memory.readWords (m : Memory) (off : Nat) : Nat → Option (List Word)
  | 0 => some []
  | n + 1 => (m.read32 off).bind fun w => (m.readWords (off + 4) n).map (w :: ·)

/-- Words written at `off`, `off + 4`, ... in their order (R123). -/
def Memory.writeWords (m : Memory) (off : Nat) : List Word → Option Memory
  | [] => some m
  | w :: ws => (m.write32 off w).bind fun m1 => m1.writeWords (off + 4) ws

end Sys2Proof.Machine
end

