-- ==== Sys2Proof/Machine/Text.lean ====
section
/-! DEFINITION. The texts of the spec: the diagnostic line the host prints (R111, R112) and the command lines (R62). -/

namespace Sys2Proof.Machine

/-- `n` lowercase hexadecimal digits of a number, most significant first. -/
def hexFixed : Nat → Nat → List Char
  | 0, _ => []
  | n + 1, v => Nat.digitChar (v / 16 ^ n % 16) :: hexFixed n v

/-- `HEX8(v)` (R112). -/
def hex8 (v : Word) : List Char := hexFixed 8 v.toNat

/-- How many digits `HEX8P` writes: 8, or all the digits of a wider address (R112). -/
def hexWidth (a : Addr) : Nat := (([8, 9, 10, 11, 12, 13, 14, 15].find? fun n => a.toNat < 16 ^ n)).getD 16

/-- `HEX8P(a)` (R112). -/
def hex8p (a : Addr) : List Char := hexFixed (hexWidth a) a.toNat

/-- The character `c_p` of a record's binary rendering (R111). -/
def binChar (r : DiagRec) (p : Nat) : Char :=
  if bit r.unresolved p then 'x' else if bit r.plainPartial p then '1' else '0'

/-- The characters `c_{n-1} ... c_0`, the highest position first. -/
def binDown (r : DiagRec) : Nat → List Char
  | 0 => []
  | n + 1 => binChar r n :: binDown r n

/-- `BIN32X(rec)`: `c_31 ... c_0` (R111). -/
def bin32x (r : DiagRec) : List Char := binDown r 32

/-- `LINE(rec)` (R112). -/
def diagLine (r : DiagRec) : List Char :=
  hex8p r.address ++ [' '] ++ hex8 r.plainPartial ++ [' '] ++ bin32x r ++ ['\n']

/-- A blank inside a command line (assumption 17). -/
def isBlank (ch : Char) : Bool := ch == ' ' || ch == '\t'

/-- A text without the blanks at its two ends. -/
def trimBlanks (t : List Char) : List Char := ((t.dropWhile isBlank).reverse.dropWhile isBlank).reverse

/-- A text cut at the commas. -/
def splitCommas : List Char → List (List Char)
  | [] => [[]]
  | ch :: t =>
    match splitCommas t with
    | [] => [[ch]]
    | f :: fs => if ch == ',' then [] :: f :: fs else (ch :: f) :: fs

/-- The value of a digit in a base, either letter case. -/
def digitIn (base : Nat) (ch : Char) : Option Nat :=
  let n := ch.toNat
  let v := if 48 ≤ n ∧ n ≤ 57 then n - 48 else if 97 ≤ n ∧ n ≤ 102 then n - 87 else if 65 ≤ n ∧ n ≤ 70 then n - 55 else 99
  if v < base then some v else none

/-- The number of a text of digits, `acc` being the digits before it. -/
def numberFrom (base : Nat) : Nat → List Char → Option Nat
  | acc, [] => some acc
  | acc, ch :: t =>
    match digitIn base ch with
    | none => none
    | some d => numberFrom base (base * acc + d) t

/-- A number in C hexadecimal or in decimal (R62). -/
def parseNumber : List Char → Option Nat
  | [] => none
  | ['0', 'x'] => none
  | ['0', 'X'] => none
  | '0' :: 'x' :: t => numberFrom 16 0 t
  | '0' :: 'X' :: t => numberFrom 16 0 t
  | t => numberFrom 10 0 t

/-- The comma-separated numbers of a text; a blank text holds none. -/
def parseNumbers (t : List Char) : Option (List Nat) :=
  if (trimBlanks t).isEmpty then some [] else (splitCommas t).mapM fun f => parseNumber (trimBlanks f)

/-- A command line of R62 as text: the mnemonic in either letter case, then its numbers; none where the text is no line
of that form. The bounds on the numbers are `Line.WellFormed`. -/
def parseLine (t : List Char) : Option Line :=
  let body := trimBlanks t
  let name := (body.takeWhile fun ch => !isBlank ch).map Char.toLower
  match parseNumbers (body.dropWhile fun ch => !isBlank ch) with
  | none => none
  | some args =>
    if name = ['i', 'd', 'l', 'e'] then (if args = [] then some .idle else none)
    else if name = ['r', 's', 'v', 'd'] then (if args = [] then some .rsvd else none)
    else if name = ['r', 'e', 's', 'e', 't'] then (if args = [] then some .reset else none)
    else if name = ['s', 'e', 't', 'b', 'a', 's', 'e'] then
      (match args with
      | [a] => some (.setbase a)
      | _ => none)
    else if name = ['d', 'e', 's', 'c', 'r'] then
      (match args with
      | [w] => some (.descr w)
      | _ => none)
    else if name = ['d', 'e', 's', 'c', 'r', 'a', 'm', 'b', 'l', 'e'] then
      (match args with
      | a :: ws => some (.descramble a ws)
      | [] => none)
    else none

/-- What a command line presents to the block; none where it is ill formed (R62). -/
def assembleLine (t : List Char) : Option (List PortInput) :=
  match parseLine t with
  | some l => if l.WellFormed then some l.expand else none
  | none => none

end Sys2Proof.Machine
end

