-- ==== Sys2Proof/Machine/Driver.lean ====
section
/-! DEFINITION. The host: LOCATE, READWORDS, DRIVE, SPLICE, the write and the report (43_host_driver.md, R154). -/

namespace Sys2Proof.Machine

/-- `is_marked` (R116): a symbol table exists and holds the marker's name. -/
def isMarked (marker : SymName) : Option (List SymName) → Bool
  | none => false
  | some names => names.contains marker

/-- The default SEGMENT_SELECT (R117): the first loadable segment of positive on-disk size (assumption 11). -/
def firstLoadable (segs : List Segment) : Option Segment := segs.find? fun g => 0 < g.fileSize

/-- `region_start_delta` (R118). -/
def regionStartDelta (marked : Bool) : Addr := if marked then deltaMarked else deltaUnmarked

/-- The Region of a selected segment (R119); sums modulo 2^64. -/
def regionOf (g : Segment) (delta : Addr) : Region :=
  { paddr := g.physicalAddress + delta, fileOffset := g.fileOffset + delta, length := regionLen }

/-- LOCATE (R116 to R120), with SEGMENT_SELECT as a parameter. -/
def locate (select : List Segment → Option Segment) (marker : SymName) (symbols : Option (List SymName))
    (segs : List Segment) : Except Fault Region :=
  match select segs with
  | none => .error .noLoadableSegment
  | some g => .ok (regionOf g (regionStartDelta (isMarked marker symbols)))

/-- The load address paired with byte `n` of a Region (R33), modulo 2^64 as every load address is (assumption 7). -/
def Region.loadAddress (r : Region) (n : Addr) : Addr := r.paddr + n

/-- The buffer offset paired with byte `n` of a Region (R33): a natural number, not taken modulo 2^64. That a byte index
may pass the 64-bit offset space is the model's choice (assumption 27). -/
def Region.bufferOffset (r : Region) (n : Nat) : Nat := r.fileOffset.toNat + n

/-- Whether `length` bytes are available at `file_offset` (R133, assumption 12). -/
def Region.available (r : Region) (m : Memory) : Bool := decide (r.fileOffset.toNat + r.length.toNat ≤ m.size)

/-- READWORDS (R121): the region as little-endian words, none where it is truncated. For a length that is no multiple of 4,
which LOCATE never gives and the spec has no rule for, the last one to three bytes belong to no word: the model's choice
(assumption 29). -/
def readRegion (m : Memory) (r : Region) : Option (List Word) :=
  if r.available m then m.readWords r.fileOffset.toNat (r.length.toNat / 4) else none

/-- What DRIVE presents: `reset; setbase paddr; descr e_0; ...` (R122). -/
def driveInputs (r : Region) (ws : List Word) : List PortInput := .rst :: descrambleInputs r.paddr ws

/-- SPLICE (R123): the plaintext words put back at `file_offset`, in order. -/
def spliceRegion (m : Memory) (r : Region) (ws : List Word) : Option Memory := m.writeWords r.fileOffset.toNat ws

/-- The driver moved to a stage. -/
def Driver.goto (d : Driver) (g : Stage) : Driver := { d with stage := g }

/-- The host moved on: its driver replaced, everything of the block as it was. -/
def State.withDriver (s : State) (d : Driver) : State := { s with driver := d }

/-- One stage of the host (R154); it moves only when the block has taken everything presented (assumption 9). With no
image, or when its run is over, it does nothing (assumption 4). -/
def driverStep (s : State) : Host.Outcome State Fault Refusal :=
  let d := s.driver
  match d.stage with
  | .noImage => .next s
  | .load file answer => .next (s.withDriver { d with buffer := file, stage := .parse answer })
  | .parse .malformed => .fault .malformedBinary
  | .parse (.parsed symbols segs) => .next (s.withDriver (d.goto (.locate symbols segs)))
  | .locate symbols segs =>
    match locate firstLoadable s.cfg.markerName symbols segs with
    | .error e => .fault e
    | .ok r => .next (s.withDriver (d.goto (.readWords r)))
  | .readWords r =>
    match readRegion d.buffer r with
    | none => .fault .truncatedFile
    | some ws => .next (s.withDriver (d.goto (.drive r ws)))
  | .drive r ws => .next ((s.present (driveInputs r ws)).withDriver (d.goto (.splice r)))
  | .splice r =>
    match spliceRegion d.buffer r s.outlog with
    | none => .fault .truncatedFile
    | some m => .next (s.withDriver { d with buffer := m, stage := .write })
  | .write => .next (s.withDriver { d with destination := some d.buffer, stage := .report })
  | .report => .next (s.withDriver { d with sink := d.sink ++ s.diaglog.map diagLine, stage := .done })
  | .done => .next s

/-- An image given to the host: the input file and the metadata reader's answers (R126, R127). A new run of the host starts
with it, whatever stage an earlier one was in; a destination file that exists already stays as it is until the write stage
replaces it whole, and lines emitted earlier stay in the sink. The spec says none of this: the model's choice (assumption
30). -/
def State.withImage (s : State) (file : Memory) (answer : Metadata) : State :=
  s.withDriver (s.driver.goto (.load file answer))

end Sys2Proof.Machine
end

