-- ==== Sys2Proof/Machine/Step.lean ====
section
/-! DEFINITION. One step of the machine: the block takes the oldest entry presented to it, or, when there is none, the
host moves (R6, R96; assumptions 3, 4, 9). -/

namespace Sys2Proof.Machine

/-- One step: the `rst` pin performs RESET (R95), a command word is decoded and executed (R96), an empty port leaves the
move to the host. -/
def step (s : State) : Host.Outcome State Fault Refusal :=
  match s.port with
  | [] => driverStep s
  | .rst :: rest => .next (s.withPort rest).applyReset
  | .command cw :: rest => exec (decode cw) (s.withPort rest)

/-- `s` with the command word `w` presented first at the command port, where the next step takes it (assumption 3); a
number that is no command word presents nothing. -/
def State.withFetchWord (s : State) (_nbits w : Nat) : State :=
  match commandWord w with
  | .ok cw => s.withPort (.command cw :: s.port)
  | .error _ => s

end Sys2Proof.Machine
end

