-- ==== Sys2Proof/Machine/Causes.lean ====
section
/-! DEFINITION. The taxonomy of R130: what each name is, and which of them a step raises. -/

namespace Sys2Proof.Machine

/-- The name of a fatal error (R130). -/
def Fault.cause : Fault → Cause
  | .malformedBinary => .malformedBinary
  | .noLoadableSegment => .noLoadableSegment
  | .truncatedFile => .truncatedFile

/-- The name of a refusal (R136); none for the constructor that is the host interface's own (assumption 28). -/
def Refusal.cause : Refusal → Option Cause
  | .baseUnset => some .baseUnset
  | .reservedCommand => some .reservedCommand
  | _ => none

/-- The column "side" of R130's table. -/
def Cause.side : Cause → Side
  | .malformedBinary => .host
  | .noLoadableSegment => .host
  | .truncatedFile => .host
  | .unresolvedBitGroup => .block
  | .baseUnset => .model
  | .reservedCommand => .model

/-- The column "fatal" of R130's table; none where it has a dash. -/
def Cause.fatal : Cause → Option Bool
  | .malformedBinary => some true
  | .noLoadableSegment => some true
  | .truncatedFile => some true
  | .unresolvedBitGroup => some false
  | .baseUnset => none
  | .reservedCommand => none

/-- The groups for which a command's step raises UnresolvedBitGroup: those whose bit on the `gu` port is 1 (R134); a
refused step evaluates nothing (R139). -/
def raisedGroups (i : Instr) (s : State) : List (Fin 8) :=
  match outPorts i s with
  | none => []
  | some p => groups.filter fun j => bit p.gu j.val

/-- What the step from `s` raises: its fatal error, its refusal, or UnresolvedBitGroup once per unresolved group (R130,
R134: "per word and per group"). -/
def raised (s : State) : List Cause :=
  match step s with
  | .fault f => [f.cause]
  | .refused r => r.cause.toList
  | .next _ =>
    match s.port with
    | .command cw :: _ => (raisedGroups (decode cw) s).map fun _ => .unresolvedBitGroup
    | _ => []

end Sys2Proof.Machine
end

