-- ==== Sys2Proof/Safety.lean ====
section
/-! DEFINITION. What claims speak of: runs, the launch premises of the spec (R27, R36, R38, R119), the machine's invariant,
the exit code of the host's run. -/

namespace Sys2Proof

/-- FREE VALUE (assumption 16): how far above 1 the exit code of a run is that ends in a fatal error (R128, R141 say only
that it is not 0). It may differ with the error and with the state the run started from, so no two codes after different
errors, and none of different runs, are provably equal. -/
opaque Config.fatalExitExcess : Machine.State → Machine.Fault → Nat

end Sys2Proof

namespace Sys2Proof.Machine

/-- `n` steps of the machine, stopping at the first fault or refusal; a refused run is refused for good (R135). -/
def run : Nat → State → Host.Outcome State Fault Refusal
  | 0, s => .next s
  | n + 1, s =>
    match step s with
    | .next t => run n t
    | .fault r => .fault r
    | .refused r => .refused r

/-- The premise of R38 under which no address of a run of `n` words wraps. -/
abbrev NoWrap (base : Addr) (n : Nat) : Prop := base.toNat + 4 * n ≤ 2 ^ 64

/-- The premise of R119 under which no sum of a segment's fields wraps in a run. -/
abbrev Segment.NoWrap (g : Segment) : Prop :=
  g.physicalAddress.toNat + 0x3b00 ≤ 2 ^ 64 ∧ g.fileOffset.toNat + 0x3b00 ≤ 2 ^ 64

/-- The alignment a claim about a run takes as a premise (R36). -/
abbrev Region.Aligned (r : Region) : Prop := r.paddr.toNat % 4 = 0 ∧ r.fileOffset.toNat % 4 = 0

/-- The identity tables of R82. -/
abbrev IdentityTables (c : Config) : Prop := ∀ (j : Fin 8) (v : Nibble), slookup c j v = .resolved v

/-- Table `j` is the permutation `f` of 0..15, with no unresolved entry (R83). -/
abbrev TableIs (c : Config) (j : Fin 8) (f : Equiv.Perm Nibble) : Prop :=
  ∀ v : Nibble, slookup c j v = .resolved (f v)

/-- The side channel of the call `descramble(words, base_addr)` (R98): for each word `w_i` with an unresolved group, in
rising `i`, the record at address `(base_addr + 4*i) mod 2^64`. -/
def callRecords (c : Config) (base : Addr) (ws : List Word) : List DiagRec :=
  ws.zipIdx.filterMap fun q =>
    if anyu c q.1 then
      some { address := BitVec.ofNat 64 (base.toNat + 4 * q.2), plainPartial := plainw c q.1, unresolved := unresw c q.1 }
    else none

/-- What every record satisfies (R57, R81, R105): zeros at the unresolved positions, and these are a union of at least
one whole group. -/
def DiagRec.Sound (c : Config) (r : DiagRec) : Prop :=
  r.plainPartial &&& r.unresolved = 0 ∧ ∃ g : BitVec 8, g ≠ 0 ∧ r.unresolved = maskOfGroups c g

/-- Every buffer the host holds is in canonical form. -/
def Driver.BuffersCanonical (d : Driver) : Prop :=
  d.buffer.wf ∧ (∀ m, d.destination = some m → m.wf) ∧ ∀ file answer, d.stage = .load file answer → file.wf

/-- How many words OUTLOG holds once the block has taken what stands at the port, `n` being what it holds now (R21). -/
def wordsAfter : List PortInput → Nat → Nat
  | [], n => n
  | .rst :: l, _ => wordsAfter l 0
  | .command cw :: l, n =>
    match decode cw with
    | .descr _ _ => wordsAfter l (n + 1)
    | _ => wordsAfter l n

/-- The region the host holds from DRIVE until SPLICE lies in the buffer, and OUTLOG will hold exactly its words when the
port is empty (R121, R125, R138). A length that is no multiple of 4 is rounded down to words (assumption 29). -/
def State.RegionHeld (s : State) : Prop :=
  match s.driver.stage with
  | .drive r ws => r.available s.driver.buffer = true ∧ ws.length = r.length.toNat / 4
  | .splice r => r.available s.driver.buffer = true ∧ wordsAfter s.port s.outlog.length = r.length.toNat / 4
  | _ => True

/-- The machine's invariant: canonical buffers; sound records (R81, R105); the records' plaintexts occur in OUTLOG in the
records' order, at most one record for each word (R107, R109); the region held fits the buffer and the words (R138). -/
def State.Inv (s : State) : Prop :=
  s.driver.BuffersCanonical ∧ (∀ r ∈ s.diaglog, r.Sound s.cfg) ∧
    (s.diaglog.map DiagRec.plainPartial).Sublist s.outlog ∧ s.RegionHeld

/-- The exit code of the host's run that started at `start` and came to an outcome (R128, R141): 0 when the run is over,
after a fatal error a free value above 0, one for each error and start (assumption 16). -/
def exitCode (start : State) : Host.Outcome State Fault Refusal → Option Nat
  | .next s => if s.driver.stage = .done then some 0 else none
  | .fault f => some (Config.fatalExitExcess start f + 1)
  | .refused _ => none

end Sys2Proof.Machine
end

