-- ==== Sys2Proof/Certificates/Slice0/Obligations.lean ====
section
/-! DEFINITION. The statements for the provers. Each docstring names the rule of spec/ it formalises, or the model's
choice it rests on ("assumption <n>" is notes/assumptions/<n>.md). -/

open Sys2Proof Sys2Proof.Machine

/-! ### Encodings (30_encoding.md) -/

/-- Decoding the word of a command gives the command back, for every command and every operand (30_encoding.md sections
1 and 8). -/
def Obligations.DecodeOfEncode : Prop := ∀ i : Instr, i.WellFormed = true → decode (encode i) = i

/-- Every 66-bit word is the word of the command it decodes to: no bit is dropped (30_encoding.md sections 1 and 8). -/
def Obligations.EncodeOfDecode : Prop := ∀ cw : CommandWord, encode (decode cw) = cw

/-- Command words of 95_test_vectors.md section 4 decode to the commands the vectors name. That a number of 67 bits is
refused by name is the model's (assumption 21, DEDUCED from the one length of R50), not the vectors'. -/
def Obligations.SampleWordsDecode : Prop :=
  decodeNat 0x0FFFFFFFFFFFFFFFF = .ok (.idle 0xFFFFFFFFFFFFFFFF) ∧
  decodeNat 0x100000000A0001B00 = .ok (.setbase 0xA0001B00) ∧
  decodeNat 0x2FFFFFFFF12345678 = .ok (.descr 0xFFFFFFFF 0x12345678) ∧
  decodeNat 0x30000000000000000 = .ok (.rsvd 0) ∧
  decodeNat 0x40000000000000000 = .error .tooWide

/-- R51: the four codes of `cmd` and what `din` is in each; decoding looks at `cmd` only. -/
def Obligations.CmdSelectsCommand : Prop :=
  ∀ din : BitVec 64,
    decode (0b00#2 ++ din : CommandWord) = .idle din ∧
    decode (0b01#2 ++ din : CommandWord) = .setbase din ∧
    decode (0b10#2 ++ din : CommandWord) = .descr (din.extractLsb' 32 32) (din.extractLsb' 0 32) ∧
    decode (0b11#2 ++ din : CommandWord) = .rsvd din

/-- R54, R60: the patterns of a ROM entry; the tag alone decides, the reserved patterns read as Unresolved, the canonical
pattern of Unresolved is 0x10; the comparator of a pattern is its tag (R73). -/
def Obligations.RomPatternsDecode : Prop :=
  (∀ s : Nibble, Entry.ofPattern (0#1 ++ s : BitVec 5) = .resolved s) ∧
  (∀ s : Nibble, Entry.ofPattern (1#1 ++ s : BitVec 5) = .unresolved) ∧
  (∀ s : Nibble, Entry.toPattern (.resolved s) = (0#1 ++ s : BitVec 5)) ∧
  Entry.toPattern .unresolved = 0x10 ∧
  ∀ e : BitVec 5, ucmp (Entry.ofPattern e) = bit e 4

/-- The 7-bit index `{j, v}` names entry `v` of ROM `j`, and every index names one entry (20_memory.md section 1). -/
def Obligations.RomIndexReadsEntry : Prop :=
  (∀ (c : Config) (j : Fin 8) (v : Nibble), romAt c (romIndex j v) = slookup c j v) ∧
  ∀ a : BitVec 7, ∃ (j : Fin 8) (v : Nibble), a = romIndex j v

/-- The 128-bit form of a record (30_encoding.md section 4): the three fields at their bits, and back. -/
def Obligations.RecordPacking : Prop :=
  (∀ r : DiagRec, DiagRec.unpack r.pack = r) ∧
  (∀ b : BitVec 128, (DiagRec.unpack b).pack = b) ∧
  ∀ r : DiagRec, r.pack.toNat = r.address.toNat * 2 ^ 64 + r.plainPartial.toNat * 2 ^ 32 + r.unresolved.toNat

/-- R57: a set of positions and its mask are in bijection, and the unresolved set of a word has a multiple of 4 positions. -/
def Obligations.SetMaskBijection : Prop :=
  (∀ (m : Word) (p : Fin 32), p ∈ maskToSet m ↔ bit m p.val = true) ∧
  (∀ m : Word, setToMask (maskToSet m) = m) ∧
  (∀ ps : List (Fin 32), ps.Pairwise (· < ·) → maskToSet (setToMask ps) = ps) ∧
  (∀ m : Word, m.toNat = ((maskToSet m).map fun p => 2 ^ p.val).sum) ∧
  ∀ (c : Config) (w : Word), unresw c w = maskOfGroups c (guw c w) ∧ (maskToSet (unresw c w)).length % 4 = 0

/-! ### The wiring (10_state.md section 1) -/

/-- The masks of the groups: four positions each, disjoint, all 32 together (10_state.md section 1). -/
def Obligations.GroupMasksPartitionWord : Prop :=
  ∀ c : Config,
    (∀ j, (maskToSet (gmask c j)).length = 4) ∧
    (∀ i j, i ≠ j → gmask c i &&& gmask c j = 0) ∧
    orAll (groups.map (gmask c)) = 0xFFFFFFFF

/-- INV is the inverse of GROUP (10_state.md section 1). -/
def Obligations.InverseWiring : Prop :=
  ∀ c : Config, (∀ p, c.pos (inv c p).1 (inv c p).2 = p) ∧ ∀ j k, inv c (c.pos j k) = (j, k)

/-! ### The datapath (40_datapath.md) -/

/-- R70: bit `k` of `GATHER(w, j)` is bit `GROUP[j][k]` of `w`; the corner cases the rule names, the exchange of two
positions of the list among them. -/
def Obligations.GatherReadsGroup : Prop :=
  ∀ (c : Config) (j : Fin 8),
    (∀ (w : Word) (k : Fin 4), bit (gather c w j) k.val = bit w (c.pos j k).val) ∧
    gather c 0 j = 0 ∧ gather c 0xFFFFFFFF j = 15 ∧
    (∀ w : Word, gather c w j = gather c (w &&& gmask c j) j) ∧
    ∀ c' : Config, c'.pos j 0 = c.pos j 1 → c'.pos j 1 = c.pos j 0 →
      ∀ w : Word, bit (gather c' w j) 0 = bit (gather c w j) 1 ∧ bit (gather c' w j) 1 = bit (gather c w j) 0

/-- The eight local values are a rearrangement of the word: each choice of eight values comes from exactly one word
(40_datapath.md section 1). -/
def Obligations.GathersRearrangeWord : Prop :=
  ∀ (c : Config) (v : Fin 8 → Nibble), ∃! w : Word, ∀ j, gather c w j = v j

/-- R75: bit `k` of `s` goes to position `GROUP[j][k]`, nothing goes elsewhere; the corner cases the rule names. -/
def Obligations.ScatterPlacesNibble : Prop :=
  ∀ (c : Config) (j : Fin 8),
    (∀ (s : Nibble) (k : Fin 4), bit (scatter c j s) (c.pos j k).val = bit s k.val) ∧
    (∀ s : Nibble, scatter c j s &&& ~~~gmask c j = 0) ∧
    scatter c j 0 = 0 ∧ scatter c j 15 = gmask c j ∧
    (∀ s : Nibble, gather c (scatter c j s) j = s) ∧
    ∀ w : Word, scatter c j (gather c w j) = w &&& gmask c j

/-- R82: gather then scatter keeps the group's bits, scatter then gather the value; with identity tables the plaintext is
the word. -/
def Obligations.GatherScatterIdentity : Prop :=
  (∀ (c : Config) (w : Word) (j : Fin 8), scatter c j (gather c w j) = w &&& gmask c j) ∧
  (∀ (c : Config) (s : Nibble) (j : Fin 8), gather c (scatter c j s) j = s) ∧
  ∀ c : Config, IdentityTables c → ∀ w : Word,
    plainw c w = orAll (groups.map fun j => w &&& gmask c j) ∧ plainw c w = w

/-- R74: bit `j` of GU is the comparator of group `j`'s entry; with all eight set the plaintext is 0 and all is
unresolved. -/
def Obligations.GuFlagsPerGroup : Prop :=
  ∀ (c : Config) (w : Word),
    (∀ j : Fin 8, bit (guw c w) j.val = ucmp (slookup c j (gather c w j))) ∧
    (guw c w = 0xFF → plainw c w = 0 ∧ unresw c w = 0xFFFFFFFF)

/-- R77: the lanes occupy disjoint positions, so their OR is also their sum and their exclusive or; the corner cases. -/
def Obligations.LanesAreDisjoint : Prop :=
  ∀ (c : Config) (w : Word),
    plainw c w = orAll (groups.map (lanePlain c w)) ∧
    (∀ i j, i ≠ j → lanePlain c w i &&& lanePlain c w j = 0) ∧
    (plainw c w).toNat = (groups.map fun j => (lanePlain c w j).toNat).sum ∧
    plainw c w = (groups.map (lanePlain c w)).foldr (· ^^^ ·) 0 ∧
    (IdentityTables c → plainw c w = w) ∧
    ((∀ j, ucmp (laneEntry c w j) = true) → plainw c w = 0)

/-- R78: UNRESW is the union of the unresolved groups' masks, and the readings of ANYU agree. -/
def Obligations.UnresolvedMaskAndSummary : Prop :=
  ∀ (c : Config) (w : Word),
    unresw c w = orAll (groups.map (laneMask c w)) ∧
    unresw c w = maskOfGroups c (guw c w) ∧
    (anyu c w = true ↔ unresw c w ≠ 0) ∧
    (anyu c w = true ↔ guw c w ≠ 0) ∧
    (unresw c w = 0 ↔ ∀ j, ∃ s, laneEntry c w j = .resolved s)

/-- The mux-tree form, read per output bit, is the same function (40_datapath.md section 5). -/
def Obligations.MuxTreeForm : Prop :=
  ∀ (c : Config) (w : Word) (p : Fin 32),
    bit (plainw c w) p.val = muxPlainBit c w p ∧ bit (unresw c w) p.val = muxUnresBit c w p

/-- R80: whatever order the groups are processed in, the results are the same. -/
def Obligations.GroupOrderIrrelevant : Prop :=
  ∀ (c : Config) (w : Word) (l : List (Fin 8)), l.Perm groups →
    orAll (l.map (lanePlain c w)) = plainw c w ∧
    orAll (l.map (laneMask c w)) = unresw c w ∧
    orAll (l.map fun j => bitAt 8 (ucmp (laneEntry c w j)) j.val) = guw c w

/-- R81: the positions of an unresolved group are in the mask and 0 in the plaintext, whatever the other groups do. -/
def Obligations.UnresolvedPositionsZero : Prop :=
  ∀ (c : Config) (w : Word),
    plainw c w &&& unresw c w = 0 ∧
    ∀ j, laneEntry c w j = .unresolved →
      ∀ k, bit (unresw c w) (c.pos j k).val = true ∧ bit (plainw c w) (c.pos j k).val = false

/-- A group whose table is a permutation is invertible; if all eight are, PLAINW is a bijection and nothing is ever
unresolved (40_datapath.md section 6, the second part marked there as derived). -/
def Obligations.BijectiveTablesInvertible : Prop :=
  (∀ (c : Config) (j : Fin 8) (f : Equiv.Perm Nibble), TableIs c j f →
    ∀ w : Word, f.symm (gather c (plainw c w) j) = gather c w j) ∧
  ∀ c : Config, (∀ j, ∃ f : Equiv.Perm Nibble, TableIs c j f) →
    Function.Bijective (plainw c) ∧ ∀ w, unresw c w = 0

/-- The word, mask and flags a DESCR puts on its ports depend on its operand and the configuration only; its address on
BASE and IDX besides, and on nothing else (10_state.md section 5, 20_memory.md section 8). -/
def Obligations.WordsIndependent : Prop :=
  ∀ (s t : State) (hi hi' w : Word) (p q : OutPorts), s.cfg = t.cfg →
    outPorts (.descr hi w) s = some p → outPorts (.descr hi' w) t = some q →
    p.plain = q.plain ∧ p.unres = q.unres ∧ p.gu = q.gu ∧ p.diagValid = q.diagValid ∧
    (s.base = t.base → s.idx = t.idx → p = q)

/-! ### The commands (41_commands.md) -/

/-- R90: IDLE changes nothing in any state and produces no event; it may stand between any two inputs of a run without
changing the run's result. -/
def Obligations.IdleChangesNothing : Prop :=
  (∀ (din : BitVec 64) (s : State),
    exec (.idle din) s = .next s ∧ outPorts (.idle din) s = none ∧ events (.idle din) s = []) ∧
  ∀ (din : BitVec 64) (s : State) (pre post : List PortInput),
    run (pre.length + 1 + post.length) (s.withPort (pre ++ .command (encode (.idle din)) :: post)) =
      run (pre.length + post.length) (s.withPort (pre ++ post))

/-- R91: SETBASE writes BASE, sets BV and clears IDX, in any state and for any value; issued twice it is as once. -/
def Obligations.SetbaseStartsSequence : Prop :=
  ∀ (a : Addr) (s : State), ∃ t : State,
    t = { s with base := some a, idx := 0 } ∧ t.bv = true ∧
    exec (.setbase a) s = .next t ∧ exec (.setbase a) t = .next t ∧
    outPorts (.setbase a) s = none ∧ events (.setbase a) s = []

/-- R92: an admitted DESCR appends PLAINW to OUTLOG, the record to DIAGLOG iff a group is unresolved, and increments IDX;
the ports carry DWORD and ADDR from the old BASE and IDX; its events are the word and then, iff a group is unresolved, the
record. -/
def Obligations.DescrDescramblesWord : Prop :=
  ∀ (hi w : Word) (s : State) (b : Addr), s.base = some b →
    exec (.descr hi w) s =
      .next { s with
        idx := s.idx + 1
        outlog := s.outlog ++ [plainw s.cfg w]
        diaglog :=
          if anyu s.cfg w then
            s.diaglog ++
              [{ address := b + 4 * s.idx, plainPartial := plainw s.cfg w, unresolved := unresw s.cfg w }]
          else s.diaglog } ∧
    outPorts (.descr hi w) s =
      some
        { plain := plainw s.cfg w, unres := unresw s.cfg w, gu := guw s.cfg w, diagValid := anyu s.cfg w,
          diagAddr := b + 4 * s.idx } ∧
    events (.descr hi w) s =
      .out (plainw s.cfg w) ::
        if anyu s.cfg w then
          [.diag { address := b + 4 * s.idx, plainPartial := plainw s.cfg w, unresolved := unresw s.cfg w }]
        else []

/-- R93: the reserved code is refused in every state, with no event, and the refusal stands for the whole run: of the run
whose next input it is, and of any run once it is refused. -/
def Obligations.ReservedCommandRefused : Prop :=
  (∀ (din : BitVec 64) (s : State), exec (.rsvd din) s = .refused .reservedCommand ∧ events (.rsvd din) s = []) ∧
  (∀ (s : State) (cw : CommandWord) (rest : List PortInput), s.port = .command cw :: rest →
    cw.extractLsb' 64 2 = 0b11#2 → ∀ n, run (n + 1) s = .refused .reservedCommand) ∧
  ∀ (m n : Nat) (s : State) (r : Refusal), run m s = .refused r → run (m + n) s = .refused r

/-- R94: DESCR while BV = 0 is refused whole: no event, no word. -/
def Obligations.DescrBeforeSetbaseRefused : Prop :=
  ∀ (hi w : Word) (s : State), s.bv = false →
    exec (.descr hi w) s = .refused .baseUnset ∧ outPorts (.descr hi w) s = none ∧ events (.descr hi w) s = []

/-- R95: the `rst` pin, in any state, clears BV, IDX and both logs and touches nothing else. -/
def Obligations.ResetClearsBlock : Prop :=
  ∀ (s : State) (rest : List PortInput), s.port = .rst :: rest →
    step s = .next { s with port := rest, base := none, idx := 0, outlog := [], diaglog := [] }

/-- R25: the values after reset; BASE has none, BV is 0, the ports carry nothing for any command, and the one command that
reads BASE is refused. -/
def Obligations.ResetStateValues : Prop :=
  State.reset.bv = false ∧ State.reset.base = none ∧ State.reset.idx = 0 ∧ State.reset.outlog = [] ∧
    State.reset.diaglog = [] ∧ (∀ i, outPorts i State.reset = none) ∧
    ∀ hi w, exec (.descr hi w) State.reset = .refused .baseUnset

/-- R136: a command word is refused exactly when it is a DESCR while BV = 0 or has `cmd = 11`; every other step has a next
state, and no command faults. -/
def Obligations.RefusalsAreExactlyTwo : Prop :=
  ∀ (s : State) (cw : CommandWord) (rest : List PortInput), s.port = .command cw :: rest →
    (∀ r, step s = .refused r ↔
      (cw.extractLsb' 64 2 = 0b11#2 ∧ r = .reservedCommand) ∨
      (cw.extractLsb' 64 2 = 0b10#2 ∧ s.bv = false ∧ r = .baseUnset)) ∧
    (∀ f, step s ≠ .fault f) ∧
    (cw.extractLsb' 64 2 ≠ 0b11#2 → (cw.extractLsb' 64 2 = 0b10#2 → s.bv = true) → ∃ t, step s = .next t)

/-- The frames of IDLE, SETBASE and DESCR (41_commands.md): no command changes the configuration, the port, the host or a
byte of the host's buffer; IDLE changes nothing; SETBASE keeps both logs; DESCR keeps BASE and BV and what the logs held. -/
def Obligations.CommandFrames : Prop :=
  (∀ (i : Instr) (s t : State), exec i s = .next t →
    t.cfg = s.cfg ∧ t.port = s.port ∧ t.driver = s.driver ∧
    ∀ a, t.driver.buffer.readByte a = s.driver.buffer.readByte a) ∧
  (∀ (din : BitVec 64) (s t : State), exec (.idle din) s = .next t →
    t.base = s.base ∧ t.idx = s.idx ∧ t.outlog = s.outlog ∧ t.diaglog = s.diaglog) ∧
  (∀ (a : Addr) (s t : State), exec (.setbase a) s = .next t → t.outlog = s.outlog ∧ t.diaglog = s.diaglog) ∧
  ∀ (hi w : Word) (s t : State), exec (.descr hi w) s = .next t →
    t.base = s.base ∧ t.bv = s.bv ∧ (∃ p, t.outlog = s.outlog ++ [p]) ∧
    (t.diaglog = s.diaglog ∨ ∃ r, t.diaglog = s.diaglog ++ [r])

/-- R61: the ignored operand bits change neither the step nor the ports. -/
def Obligations.IgnoredOperandBits : Prop :=
  ∀ (s : State) (rest : List PortInput) (cw cw' : CommandWord),
    cw.extractLsb' 64 2 = cw'.extractLsb' 64 2 →
    (cw.extractLsb' 64 2 = 0b01#2 → cw.extractLsb' 0 64 = cw'.extractLsb' 0 64) →
    (cw.extractLsb' 64 2 = 0b10#2 → cw.extractLsb' 0 32 = cw'.extractLsb' 0 32) →
    step (s.withPort (.command cw :: rest)) = step (s.withPort (.command cw' :: rest)) ∧
    outPorts (decode cw) s = outPorts (decode cw') s

/-- A step runs the decoded command on the state whose port has moved past it; so does a step after `withFetchWord`, for
whatever the opcode-table decoder reads (assumption 3). -/
def Obligations.StepRunsDecodedCommand : Prop :=
  (∀ (s : State) (cw : CommandWord) (rest : List PortInput), s.port = .command cw :: rest →
    step s = exec (decode cw) (s.withPort rest)) ∧
  ∀ (s : State) (nbits w : Nat) (i : Instr), decodeTableWord nbits w = some i → step (s.withFetchWord nbits w) = exec i s

/-- The model's choice (assumptions 4, 9): with nothing at the port the host moves, and with no image, or after its run,
the machine waits. -/
def Obligations.EmptyPortLeavesMoveToHost : Prop :=
  ∀ s : State, s.port = [] →
    step s = driverStep s ∧ (s.driver.stage = .noImage ∨ s.driver.stage = .done → step s = .next s)

/-- R23: the ports carry values in the step of an admitted DESCR and nothing in any other step, where no event occurs. -/
def Obligations.PortsAbsentOutsideDescr : Prop :=
  ∀ (i : Instr) (s : State),
    (∀ hi w b, i = .descr hi w → s.base = some b →
      outPorts i s =
        some
          { plain := plainw s.cfg w, unres := unresw s.cfg w, gu := guw s.cfg w, diagValid := anyu s.cfg w,
            diagAddr := addrOf b s.idx }) ∧
    ((∀ hi w, i ≠ .descr hi w) → outPorts i s = none ∧ events i s = [])

/-- R38: ADDR is the sum modulo 2^64 of the old BASE and four times the old IDX, exact under the premise the rule names. -/
def Obligations.AddressFormula : Prop :=
  ∀ (s : State) (hi w : Word) (b : Addr), s.base = some b →
    ∃ p, outPorts (.descr hi w) s = some p ∧
      p.diagAddr.toNat = (b.toNat + 4 * s.idx.toNat) % 2 ^ 64 ∧
      ∀ n, NoWrap b n → s.idx.toNat < n → p.diagAddr.toNat = b.toNat + 4 * s.idx.toNat

/-- The registers' only writers (10_state.md section 2): reset and SETBASE write BASE and BV; reset, SETBASE and DESCR
write IDX; nothing else does, the host's moves included. -/
def Obligations.RegistersWrittenOnlyBy : Prop :=
  ∀ s t : State, step s = .next t →
    (t.base =
      match s.port with
      | [] => s.base
      | .rst :: _ => none
      | .command cw :: _ =>
        match decode cw with
        | .setbase a => some a
        | _ => s.base) ∧
    t.idx =
      match s.port with
      | [] => s.idx
      | .rst :: _ => 0
      | .command cw :: _ =>
        match decode cw with
        | .setbase _ => 0
        | .descr _ _ => s.idx + 1
        | _ => s.idx

/-- R26: the configuration has the same values before and after a reset, and indeed before and after every step and run. -/
def Obligations.ConfigurationNeverWritten : Prop :=
  (∀ s : State, s.applyReset.cfg = s.cfg) ∧
  (∀ s t : State, step s = .next t → t.cfg = s.cfg) ∧
  ∀ (n : Nat) (s t : State), run n s = .next t → t.cfg = s.cfg

/-- R21, R22: each executed DESCR appends its word to OUTLOG, and one record to DIAGLOG exactly when ANYU = 1; reset
empties both; nothing else touches them. (A DESCR step with a next state has BV = 1, so its BASE has a value.) -/
def Obligations.LogsRecordEveryDescr : Prop :=
  ∀ s t : State, step s = .next t →
    (t.outlog =
      match s.port with
      | [] => s.outlog
      | .rst :: _ => []
      | .command cw :: _ =>
        match decode cw with
        | .descr _ w => s.outlog ++ [plainw s.cfg w]
        | _ => s.outlog) ∧
    t.diaglog =
      match s.port with
      | [] => s.diaglog
      | .rst :: _ => []
      | .command cw :: _ =>
        match decode cw with
        | .descr _ w =>
          if anyu s.cfg w then
            s.diaglog ++
              [{ address := addrOf (s.base.getD 0) s.idx, plainPartial := plainw s.cfg w, unresolved := unresw s.cfg w }]
          else s.diaglog
        | _ => s.diaglog

/-- The command sequence of the call `descramble(words, base_addr)`, from any state (41_commands.md, marked there as
derived): it appends exactly the descrambled words and exactly the call's records, whose addresses rise unless an address
of the sequence wraps. -/
def Obligations.DescrambleSequence : Prop :=
  (∀ (s : State) (a : Addr) (ws : List Word) (rest : List PortInput),
    run (ws.length + 1) (s.withPort (descrambleInputs a ws ++ rest)) =
      .next { s with
        port := rest
        base := some a
        idx := BitVec.ofNat 64 ws.length
        outlog := s.outlog ++ ws.map (plainw s.cfg)
        diaglog := s.diaglog ++ callRecords s.cfg a ws }) ∧
  ∀ (c : Config) (a : Addr) (ws : List Word), NoWrap a ws.length →
    (callRecords c a ws).Pairwise fun q r => q.address.toNat < r.address.toNat

/-! ### Diagnostics (42_diagnostics.md) -/

/-- R105: a DESCR step appends a record iff one of the eight entries is Unresolved, with the address, the best-effort
plaintext and the exact mask; else it appends none. -/
def Obligations.RecordIffUnresolved : Prop :=
  ∀ (hi w : Word) (s : State) (b : Addr), s.base = some b →
    ∃ t, exec (.descr hi w) s = .next t ∧
      ((∃ j, laneEntry s.cfg w j = .unresolved) →
        t.diaglog =
          s.diaglog ++
            [{ address := addrOf b s.idx, plainPartial := plainw s.cfg w, unresolved := unresw s.cfg w }]) ∧
      ((∀ j, laneEntry s.cfg w j ≠ .unresolved) → t.diaglog = s.diaglog)

/-- R107: one record per word, not per group, and the per-group detail can be recomputed from its mask. -/
def Obligations.OneRecordPerWord : Prop :=
  (∀ (hi w : Word) (s : State) (b : Addr), s.base = some b →
    ∃ t, exec (.descr hi w) s = .next t ∧
      (guw s.cfg w ≠ 0 → ∃ r, t.diaglog = s.diaglog ++ [r] ∧ r.unresolved = maskOfGroups s.cfg (guw s.cfg w)) ∧
      (guw s.cfg w = 0 → t.diaglog = s.diaglog)) ∧
  ∀ (c : Config) (w : Word) (j : Fin 8),
    (bit (guw c w) j.val = true ↔ unresw c w &&& gmask c j ≠ 0) ∧
    (bit (guw c w) j.val = true → unresw c w &&& gmask c j = gmask c j)

/-- A region of all-zero words under tables that map 0 to 0 descrambles to all-zero words with no diagnostic
(40_datapath.md section 6, the source's end-to-end case). -/
def Obligations.AllZeroRegion : Prop :=
  ∀ (s : State) (a : Addr) (n : Nat), (∀ j, slookup s.cfg j 0 = .resolved 0) →
    ∃ t, run (n + 1) (s.withPort (descrambleInputs a (List.replicate n 0))) = .next t ∧
      t.outlog = s.outlog ++ List.replicate n 0 ∧ t.diaglog = s.diaglog

/-- A word for which group 3 is unresolved and all other groups resolve to 0 gives the word 0 and exactly one record, whose
set is group 3's positions (40_datapath.md section 6, the source's end-to-end case). -/
def Obligations.OneUnresolvedGroupWord : Prop :=
  ∀ (hi w : Word) (s : State) (b : Addr), s.base = some b →
    laneEntry s.cfg w 3 = .unresolved → (∀ j, j ≠ 3 → laneEntry s.cfg w j = .resolved 0) →
    ∃ t, exec (.descr hi w) s = .next t ∧ t.outlog = s.outlog ++ [0] ∧
      t.diaglog = s.diaglog ++ [{ address := addrOf b s.idx, plainPartial := 0, unresolved := gmask s.cfg 3 }] ∧
      ∀ p, p ∈ maskToSet (gmask s.cfg 3) ↔ ∃ k, p = s.cfg.pos 3 k

/-- The binary rendering of a record (42_diagnostics.md section 3): 32 characters, position 31 first, each as the section
says; four `x` for each unresolved group. -/
def Obligations.BinaryRendering : Prop :=
  (∀ r : DiagRec,
    (bin32x r).length = 32 ∧
    ∀ p : Fin 32, (bin32x r)[31 - p.val]? =
      some (if bit r.unresolved p.val then 'x' else if bit r.plainPartial p.val then '1' else '0')) ∧
  ∀ (c : Config) (w : Word) (a : Addr),
    (bin32x { address := a, plainPartial := plainw c w, unresolved := unresw c w }).count 'x' =
      4 * (groups.filter fun j => bit (guw c w) j.val).length

/-- The text line (42_diagnostics.md section 3; the spelling is the spec's decision, assumption 18): address, plaintext,
binary rendering, one space between fields and a line feed at the end. Of its hexadecimal fields: reading the digits back gives the value; 8 digits, or as many as a wider address needs; all lowercase. -/
def Obligations.LineDigitsReadBack : Prop :=
  (∀ r : DiagRec,
    diagLine r = hex8p r.address ++ [' '] ++ hex8 r.plainPartial ++ [' '] ++ bin32x r ++ ['\n']) ∧
  (∀ v : Word, (hex8 v).length = 8 ∧ numberFrom 16 0 (hex8 v) = some v.toNat) ∧
  (∀ a : Addr,
    numberFrom 16 0 (hex8p a) = some a.toNat ∧ 8 ≤ (hex8p a).length ∧ (hex8p a).length ≤ 16 ∧
    (8 < (hex8p a).length → 16 ^ ((hex8p a).length - 1) ≤ a.toNat)) ∧
  (∀ (v : Word) (ch : Char), ch ∈ hex8 v → ch ∈ "0123456789abcdef".toList) ∧
  ∀ (a : Addr) (ch : Char), ch ∈ hex8p a → ch ∈ "0123456789abcdef".toList

/-! ### The host (20_memory.md, 43_host_driver.md, 60_exceptions.md, 70_reset_and_hazards.md) -/

/-- R34: the host reads little-endian words; the byte at the lowest offset supplies positions 0..7. -/
def Obligations.HostReadsLittleEndian : Prop :=
  ∀ (m : Memory) (off : Nat) (b0 b1 b2 b3 : Byte),
    m.readByte off = some b0 → m.readByte (off + 1) = some b1 → m.readByte (off + 2) = some b2 →
    m.readByte (off + 3) = some b3 →
    ∃ w, m.read32 off = some w ∧
      w.toNat = b0.toNat + b1.toNat * 2 ^ 8 + b2.toNat * 2 ^ 16 + b3.toNat * 2 ^ 24

/-- A host write stores the four bytes little-endian at `off`, leaves every other byte and the size alone, keeps the
canonical form, and is read back (20_memory.md section 2). -/
def Obligations.HostWritesLittleEndian : Prop :=
  ∀ (m : Memory) (off : Nat) (v : Word), m.wf → off + 4 ≤ m.size →
    ∃ m', m.write32 off v = some m' ∧ m'.size = m.size ∧ m'.wf ∧
      m'.readByte off = some (v.extractLsb' 0 8) ∧ m'.readByte (off + 1) = some (v.extractLsb' 8 8) ∧
      m'.readByte (off + 2) = some (v.extractLsb' 16 8) ∧ m'.readByte (off + 3) = some (v.extractLsb' 24 8) ∧
      m'.read32 off = some v ∧
      ∀ a, a < off ∨ off + 4 ≤ a → m'.readByte a = m.readByte a

/-- R116, R118, R119: the Region of the selected segment, whatever SEGMENT_SELECT selects it (which of several qualifying
segments is a statement of its own, RegionAlignment); the same delta is added to both fields modulo 2^64, exact under the
premise R119 names, under which nothing wraps later in the run either (no address of the Region's 2048 words, no byte
offset); it is 0x1b00 when the symbol table exists and holds the marker's name, else 0x1fc. -/
def Obligations.LocateComputesRegion : Prop :=
  (∀ (select : List Segment → Option Segment) (marker : SymName) (symbols : Option (List SymName)) (segs : List Segment)
      (g : Segment) (delta : Addr),
    select segs = some g →
    (((∃ names, symbols = some names ∧ marker ∈ names) ∧ delta = 0x1b00) ∨
      ((¬∃ names, symbols = some names ∧ marker ∈ names) ∧ delta = 0x1fc)) →
    locate select marker symbols segs =
      .ok { paddr := g.physicalAddress + delta, fileOffset := g.fileOffset + delta, length := 0x2000 }) ∧
  ∀ (g : Segment) (marked : Bool), g.NoWrap →
    (regionOf g (regionStartDelta marked)).paddr.toNat =
      g.physicalAddress.toNat + (if marked then 0x1b00 else 0x1fc) ∧
    (regionOf g (regionStartDelta marked)).fileOffset.toNat =
      g.fileOffset.toNat + (if marked then 0x1b00 else 0x1fc) ∧
    NoWrap (regionOf g (regionStartDelta marked)).paddr 2048 ∧
    (regionOf g (regionStartDelta marked)).fileOffset.toNat + 0x2000 ≤ 2 ^ 64

/-- Which Region the driver uses and when it is aligned: it belongs to the first loadable segment of positive size in the
reader's order (assumption 11, DESIGN CHOICE after decision D21: the source leaves open which of several qualifying segments
is right), and it is 4-byte aligned exactly when that segment's fields are (20_memory.md section 3, marked there as
derived). -/
def Obligations.RegionAlignment : Prop :=
  (∀ (marker : SymName) (symbols : Option (List SymName)) (before after : List Segment) (g : Segment),
    (∀ x ∈ before, x.fileSize = 0) → g.fileSize ≠ 0 →
    locate firstLoadable marker symbols (before ++ g :: after) =
      .ok (regionOf g (regionStartDelta (isMarked marker symbols)))) ∧
  ∀ (g : Segment) (marked : Bool),
    (regionOf g (regionStartDelta marked)).Aligned ↔
      g.physicalAddress.toNat % 4 = 0 ∧ g.fileOffset.toNat % 4 = 0

/-- R131: metadata that cannot be parsed ends the run before any region is computed. -/
def Obligations.MalformedMetadataFaults : Prop :=
  ∀ s : State, s.port = [] → s.driver.stage = .parse .malformed → step s = .fault .malformedBinary

/-- R132: LOCATE fails exactly when no loadable segment has a positive on-disk size, which includes no segment at all. -/
def Obligations.NoLoadableSegmentFaults : Prop :=
  ∀ (s : State) (symbols : Option (List SymName)) (segs : List Segment),
    s.port = [] → s.driver.stage = .locate symbols segs →
    (step s = .fault .noLoadableSegment ↔ ∀ g ∈ segs, g.fileSize = 0)

/-- READWORDS (43_host_driver.md section 2, 60_exceptions.md section 1) fails exactly when fewer than `length` bytes are
available at `file_offset`; else word `i` is the little-endian word at `file_offset + 4*i`, for all the region's words, and
the host goes on to DRIVE with exactly these. That the sum `file_offset + length` is compared as an integer, with no wrap,
is the model's reading (assumption 12, DEDUCED). For a length that is no multiple of 4, which LOCATE never gives, that there
are `length / 4` words rounded down is the model's choice (assumption 29, DESIGN CHOICE). -/
def Obligations.TruncatedFileFaults : Prop :=
  ∀ (s : State) (r : Region), s.port = [] → s.driver.stage = .readWords r →
    (step s = .fault .truncatedFile ↔ s.driver.buffer.size < r.fileOffset.toNat + r.length.toNat) ∧
    (r.fileOffset.toNat + r.length.toNat ≤ s.driver.buffer.size →
      ∃ ws, readRegion s.driver.buffer r = some ws ∧ ws.length = r.length.toNat / 4 ∧
        (∀ i, i < ws.length → s.driver.buffer.read32 (r.fileOffset.toNat + 4 * i) = ws[i]?) ∧
        step s = .next (s.withDriver (s.driver.goto (.drive r ws))))

/-- The host's buffer changes only when the file is loaded and when the region is spliced, the destination only when the
buffer is written out, the sink only in the report, one line for each record (20_memory.md section 8, 43_host_driver.md
section 2); that SPLICE takes all of OUTLOG, and the report all of DIAGLOG, is the model's choice (assumption 9). A fault
comes from the host alone, and under the invariant never after READWORDS (60_exceptions.md section 4). In states that break
the invariant, which no run of the host reaches, a SPLICE past the end of the buffer faults: the model's choice
(assumption 13), and so is the number of words of a length that is no multiple of 4 (assumption 29). -/
def Obligations.BufferAndDestinationWrites : Prop :=
  (∀ s t : State, step s = .next t →
    (t.driver.destination = s.driver.destination ∨
      (s.port = [] ∧ s.driver.stage = .write ∧ t.driver.destination = some s.driver.buffer)) ∧
    (t.driver.buffer = s.driver.buffer ∨
      (s.port = [] ∧ ∃ file answer, s.driver.stage = .load file answer ∧ t.driver.buffer = file) ∨
      (s.port = [] ∧ ∃ r, s.driver.stage = .splice r ∧
        spliceRegion s.driver.buffer r s.outlog = some t.driver.buffer)) ∧
    (t.driver.sink = s.driver.sink ∨
      (s.port = [] ∧ s.driver.stage = .report ∧ t.driver.sink = s.driver.sink ++ s.diaglog.map diagLine))) ∧
  (∀ (s : State) (f : Fault), step s = .fault f →
    s.port = [] ∧
      (s.driver.stage = .parse .malformed ∨ (∃ symbols segs, s.driver.stage = .locate symbols segs) ∨
        (∃ r, s.driver.stage = .readWords r) ∨ ∃ r, s.driver.stage = .splice r)) ∧
  (∀ (s : State) (f : Fault), s.Inv → step s = .fault f →
    s.port = [] ∧
      (s.driver.stage = .parse .malformed ∨ (∃ symbols segs, s.driver.stage = .locate symbols segs) ∨
        ∃ r, s.driver.stage = .readWords r)) ∧
  ∀ (s : State) (r : Region), s.Inv → s.port = [] → s.driver.stage = .splice r →
    s.outlog.length = r.length.toNat / 4 ∧
      ∃ m, spliceRegion s.driver.buffer r s.outlog = some m ∧
        step s = .next (s.withDriver { s.driver with buffer := m, stage := .write })

/-- SPLICE puts the words back in their order, little-endian, and changes no byte outside them nor the buffer's size
(43_host_driver.md section 2). -/
def Obligations.SpliceChangesOnlyRegion : Prop :=
  ∀ (m m' : Memory) (r : Region) (ws : List Word), m.wf → spliceRegion m r ws = some m' →
    m'.size = m.size ∧ m'.wf ∧ m'.readWords r.fileOffset.toNat ws.length = some ws ∧
    ∀ a, a < r.fileOffset.toNat ∨ r.fileOffset.toNat + 4 * ws.length ≤ a → m'.readByte a = m.readByte a

/-- The host's whole run on one image (70_reset_and_hazards.md section 2): from an image whose metadata gives the Region
`r` and whose file holds its words `ws`, the run ends with the destination holding the file with the descrambled words
spliced in, and one text line for each record in word order, which is rising address order unless an address wraps. The
lines of an earlier run stay before them in the sink, and a destination that existed is replaced (assumption 30). The other
choices of the model it rests on: the number of steps, one for each stage (assumption 9); the lines after the write (10); the
Region of the first qualifying segment (11); a write that never fails (15, unsafe). -/
def Obligations.WholeHostRun : Prop :=
  ∀ (s : State) (file : Memory) (symbols : Option (List SymName)) (segs : List Segment) (r : Region) (ws : List Word),
    s.port = [] → locate firstLoadable s.cfg.markerName symbols segs = .ok r → readRegion file r = some ws →
    ∃ (t : State) (out : Memory),
      run (ws.length + 10) (s.withImage file (.parsed symbols segs)) = .next t ∧
      spliceRegion file r (ws.map (plainw s.cfg)) = some out ∧
      t.driver =
        { stage := .done, buffer := out, destination := some out,
          sink := s.driver.sink ++ (callRecords s.cfg r.paddr ws).map diagLine } ∧
      t.outlog = ws.map (plainw s.cfg) ∧ t.diaglog = callRecords s.cfg r.paddr ws ∧
      (NoWrap r.paddr ws.length → t.diaglog.Pairwise fun q u => q.address.toNat < u.address.toNat) ∧
      exitCode (s.withImage file (.parsed symbols segs)) (.next t) = some 0

/-- What each well-formed command line presents to the block (30_encoding.md section 7). -/
def Obligations.LinesAssemble : Prop :=
  Line.expand .idle = [.command (0x00000000000000000 : CommandWord)] ∧
  Line.expand .rsvd = [.command (0x30000000000000000 : CommandWord)] ∧
  Line.expand .reset = [.rst] ∧
  (∀ a, (Line.setbase a).WellFormed = true →
    ∃ cw, Line.expand (.setbase a) = [.command cw] ∧ cw.toNat = 2 ^ 64 + a) ∧
  (∀ w, (Line.descr w).WellFormed = true →
    ∃ cw, Line.expand (.descr w) = [.command cw] ∧ cw.toNat = 2 * 2 ^ 64 + w) ∧
  ∀ a ws, (Line.descramble a ws).WellFormed = true →
    Line.expand (.descramble a ws) = Line.expand (.setbase a) ++ ws.flatMap fun w => Line.expand (.descr w)

/-! ### The machine's invariant -/

/-- Every step keeps the invariant: the host's buffers canonical, every record sound (zeros at unresolved positions, which
are a union of whole groups: R57, R81), the records' plaintexts a subsequence of OUTLOG (R107, R109), the region held from
DRIVE to SPLICE inside the buffer with as many words coming to OUTLOG as it has (R138). -/
def Obligations.InvariantKeptByStep : Prop := ∀ s t : State, s.Inv → step s = .next t → t.Inv

/-- The invariant holds at reset, whatever the device's configuration, and still when an image is given. -/
def Obligations.InvariantHoldsAtReset : Prop :=
  State.reset.Inv ∧ ∀ (s : State) (file : Memory) (answer : Metadata), s.Inv → file.wf → (s.withImage file answer).Inv

/-! ### The taxonomy of conditions (60_exceptions.md) -/

/-- The names of 60_exceptions.md section 1, as steps raise them: each fault and each refusal raises the condition of its own
name and no other, and only the two refusals occur; a condition raised is fatal exactly in a fault, and its side is the
host's in a fault, the model's in a refusal, the block's in a step with a next state; the exit code after a fatal error is
not 0 (43_host_driver.md section 3; nothing more is known of it: assumption 16). A step with a next state raises nothing unless it is a DESCR, and a DESCR with BV = 1
has a next state and raises UnresolvedBitGroup once for each unresolved group: with none the word leaves no record, with any
it leaves one, of four positions for each. -/
def Obligations.CausesRaised : Prop :=
  (∀ (start : State) (f : Fault), ∃ n, exitCode start (.fault f) = some n ∧ n ≠ 0) ∧
  ∀ s : State,
    (step s = .fault .malformedBinary → raised s = [.malformedBinary]) ∧
    (step s = .fault .noLoadableSegment → raised s = [.noLoadableSegment]) ∧
    (step s = .fault .truncatedFile → raised s = [.truncatedFile]) ∧
    (step s = .refused .baseUnset → raised s = [.baseUnset]) ∧
    (step s = .refused .reservedCommand → raised s = [.reservedCommand]) ∧
    (∀ r, step s = .refused r → r = .baseUnset ∨ r = .reservedCommand) ∧
    (∀ c ∈ raised s,
      (c.fatal = some true ↔ ∃ f, step s = .fault f) ∧ (c.fatal = none ↔ ∃ r, step s = .refused r) ∧
      (c.side = .host ↔ ∃ f, step s = .fault f) ∧ (c.side = .model ↔ ∃ r, step s = .refused r) ∧
      (c.side = .block ↔ ∃ t, step s = .next t)) ∧
    (∀ t, step s = .next t → raised s ≠ [] →
      ∃ cw rest hi w, s.port = .command cw :: rest ∧ decode cw = .descr hi w) ∧
    ∀ (cw : CommandWord) (rest : List PortInput) (hi w : Word),
      s.port = .command cw :: rest → decode cw = .descr hi w → s.bv = true →
      ∃ t, step s = .next t ∧
        raised s = (raisedGroups (decode cw) s).map (fun _ => .unresolvedBitGroup) ∧
        (∀ j, j ∈ raisedGroups (decode cw) s ↔ laneEntry s.cfg w j = .unresolved) ∧
        (raised s = [] → t.diaglog = s.diaglog) ∧
        (raised s ≠ [] →
          ∃ r, t.diaglog = s.diaglog ++ [r] ∧ (maskToSet r.unresolved).length = 4 * (raised s).length)
end

