-- ==== Sys2Proof/Laws/Buffer.lean ====
section
/-! SUPPORT. The host's buffer: what a write leaves at every offset, and that every operation keeps the canonical form. -/

namespace Sys2Proof.Machine

/-- A canonical list of cells: offsets strictly rising, no zero listed. -/
abbrev CellsCanonical (l : List Host.Cell) : Prop := l.Pairwise (fun x y => x.1 < y.1) ∧ ∀ x ∈ l, x.2 ≠ 0

theorem cellAt_of_lt {l : List Host.Cell} {a : Nat} (h : ∀ x ∈ l, a < x.1) : cellAt l a = 0 := by
  induction l with
  | nil => rfl
  | cons x xs ih =>
    have hx := h x (by simp)
    rw [cellAt, if_neg (by omega), ih fun y hy => h y (by simp [hy])]

/-- A byte put into a canonical list is read back, and every other address reads as before. -/
theorem cellAt_setCell {l : List Host.Cell} (hl : l.Pairwise fun x y => x.1 < y.1) (a b : Nat) (v : Byte) :
    cellAt (setCell l a v) b = if b = a then v else cellAt l b := by
  induction l with
  | nil =>
    rw [setCell]
    by_cases hb : b = a
    · subst hb
      by_cases hv : v = 0
      · rw [if_pos hv, if_pos rfl, hv]; rfl
      · rw [if_neg hv, if_pos rfl]; simp [cellAt]
    · by_cases hv : v = 0
      · rw [if_pos hv, if_neg hb]
      · rw [if_neg hv, if_neg hb]; simp [cellAt, Ne.symm hb]
  | cons x xs ih =>
    obtain ⟨hx, hxs⟩ := List.pairwise_cons.1 hl
    unfold setCell
    split
    · rename_i hax
      have hlow : cellAt (x :: xs) a = 0 :=
        cellAt_of_lt fun y hy => by
          rcases List.mem_cons.1 hy with rfl | hy
          · exact hax
          · exact Nat.lt_trans hax (hx y hy)
      by_cases hb : b = a
      · subst hb
        split
        · rename_i hv; simp [hlow, hv]
        · simp [cellAt]
      · split
        · simp
        · simp [cellAt, Ne.symm hb]
    · split
      · rename_i hax
        have hlow : cellAt xs a = 0 := cellAt_of_lt fun y hy => by rw [hax]; exact hx y hy
        by_cases hb : b = a
        · subst hb
          split
          · rename_i hv; simp [hlow, hv]
          · simp [cellAt]
        · have hxb : x.1 ≠ b := by omega
          split <;> simp [cellAt, hxb, Ne.symm hb]
      · rename_i hlt hne
        by_cases hxb : x.1 = b
        · have hb : b ≠ a := by omega
          simp [cellAt, hxb, hb]
        · simp [cellAt, hxb, ih hxs]

theorem mem_setCell {l : List Host.Cell} {a : Nat} {v : Byte} {x : Host.Cell} (h : x ∈ setCell l a v) :
    x ∈ l ∨ x = (a, v) ∧ v ≠ 0 := by
  induction l with
  | nil =>
    by_cases hv : v = 0
    · simp [setCell, hv] at h
    · rw [setCell, if_neg hv] at h
      exact .inr ⟨List.mem_singleton.1 h, hv⟩
  | cons y ys ih =>
    unfold setCell at h
    split at h
    · split at h
      · exact .inl h
      · rename_i hv
        rcases List.mem_cons.1 h with rfl | h
        · exact .inr ⟨rfl, hv⟩
        · exact .inl h
    · split at h
      · split at h
        · exact .inl (List.mem_cons_of_mem _ h)
        · rename_i hv
          rcases List.mem_cons.1 h with rfl | h
          · exact .inr ⟨rfl, hv⟩
          · exact .inl (List.mem_cons_of_mem _ h)
      · rcases List.mem_cons.1 h with rfl | h
        · exact .inl List.mem_cons_self
        · exact (ih h).imp (List.mem_cons_of_mem _) id

/-- `setCell` keeps the canonical form. -/
theorem setCell_canonical {l : List Host.Cell} (hl : CellsCanonical l) (a : Nat) (v : Byte) :
    CellsCanonical (setCell l a v) := by
  refine ⟨?_, fun x hx => ?_⟩
  · obtain ⟨hp, -⟩ := hl
    induction l with
    | nil => unfold setCell; split <;> simp
    | cons x xs ih =>
      have hp' := List.pairwise_cons.1 hp
      unfold setCell
      split
      · rename_i hax
        split
        · exact hp
        · refine List.pairwise_cons.2 ⟨fun y hy => ?_, hp⟩
          rcases List.mem_cons.1 hy with rfl | hy
          · exact hax
          · exact Nat.lt_trans hax (hp'.1 y hy)
      · split
        · rename_i hax
          split
          · exact hp'.2
          · exact List.pairwise_cons.2 ⟨fun y hy => by rw [hax]; exact hp'.1 y hy, hp'.2⟩
        · refine List.pairwise_cons.2 ⟨fun y hy => ?_, ih hp'.2⟩
          rcases mem_setCell hy with hy | ⟨rfl, -⟩
          · exact hp'.1 y hy
          · simp only; omega
  · rcases mem_setCell hx with hx | ⟨rfl, hv⟩
    · exact hl.2 x hx
    · exact hv

theorem Memory.wf.canonical {m : Memory} (h : m.wf) : CellsCanonical m.cells := ⟨h.1, fun x hx => (h.2 x hx).2⟩

@[simp] theorem Memory.empty_wf : Memory.empty.wf := by decide

/-- All a byte write can do: inside the buffer it answers a buffer of the same size, canonical if the old one was, that
reads `v` at the offset and as before elsewhere. -/
theorem Memory.writeByte_spec {m m' : Memory} {a : Nat} {v : Byte} (hm : m.wf) (h : m.writeByte a v = some m') :
    a < m.size ∧ m'.size = m.size ∧ m'.wf ∧ ∀ b, m'.readByte b = if b = a then some v else m.readByte b := by
  unfold Memory.writeByte at h
  split at h
  · rename_i ha
    cases h
    have hc := setCell_canonical hm.canonical a v
    refine ⟨ha, rfl, ⟨hc.1, fun x hx => ⟨?_, hc.2 x hx⟩⟩, fun b => ?_⟩
    · rcases mem_setCell hx with hx | ⟨rfl, -⟩
      · exact (hm.2 x hx).1
      · exact ha
    · simp only [Memory.readByte, cellAt_setCell hm.1]
      by_cases hb : b = a
      · simp [hb, ha]
      · simp [hb]
  · cases h

theorem Memory.writeByte_isSome {m : Memory} {a : Nat} {v : Byte} (h : a < m.size) : ∃ m', m.writeByte a v = some m' := by
  simp [Memory.writeByte, h]

theorem Memory.writeByte_size {m m' : Memory} {a : Nat} {v : Byte} (h : m.writeByte a v = some m') :
    a < m.size ∧ m'.size = m.size := by
  unfold Memory.writeByte at h
  split at h
  · cases h; exact ⟨by assumption, rfl⟩
  · cases h

theorem Memory.write32_size {m m' : Memory} {off : Nat} {v : Word} (h : m.write32 off v = some m') :
    off + 4 ≤ m.size ∧ m'.size = m.size := by
  simp only [Memory.write32, Option.bind_eq_some_iff] at h
  obtain ⟨m1, h1, m2, h2, m3, h3, h4⟩ := h
  have e1 := Memory.writeByte_size h1
  have e2 := Memory.writeByte_size h2
  have e3 := Memory.writeByte_size h3
  have e4 := Memory.writeByte_size h4
  omega

theorem Memory.write32_isSome {m : Memory} {off : Nat} (v : Word) (h : off + 4 ≤ m.size) :
    ∃ m', m.write32 off v = some m' := by
  obtain ⟨m1, h1⟩ := Memory.writeByte_isSome (m := m) (a := off) (v := v.extractLsb' 0 8) (by omega)
  have e1 := Memory.writeByte_size h1
  obtain ⟨m2, h2⟩ := Memory.writeByte_isSome (m := m1) (a := off + 1) (v := v.extractLsb' 8 8) (by omega)
  have e2 := Memory.writeByte_size h2
  obtain ⟨m3, h3⟩ := Memory.writeByte_isSome (m := m2) (a := off + 2) (v := v.extractLsb' 16 8) (by omega)
  have e3 := Memory.writeByte_size h3
  obtain ⟨m4, h4⟩ := Memory.writeByte_isSome (m := m3) (a := off + 3) (v := v.extractLsb' 24 8) (by omega)
  exact ⟨m4, by simp [Memory.write32, h1, h2, h3, h4]⟩

/-- All a word write can do (R35). -/
theorem Memory.write32_spec {m m' : Memory} {off : Nat} {v : Word} (hm : m.wf) (h : m.write32 off v = some m') :
    off + 4 ≤ m.size ∧ m'.size = m.size ∧ m'.wf ∧
      ∀ b, m'.readByte b =
        if off ≤ b ∧ b < off + 4 then some (v.extractLsb' (8 * (b - off)) 8) else m.readByte b := by
  have hs := Memory.write32_size h
  simp only [Memory.write32, Option.bind_eq_some_iff] at h
  obtain ⟨m1, h1, m2, h2, m3, h3, h4⟩ := h
  obtain ⟨-, -, w1, r1⟩ := Memory.writeByte_spec hm h1
  obtain ⟨-, -, w2, r2⟩ := Memory.writeByte_spec w1 h2
  obtain ⟨-, -, w3, r3⟩ := Memory.writeByte_spec w2 h3
  obtain ⟨-, -, w4, r4⟩ := Memory.writeByte_spec w3 h4
  refine ⟨hs.1, hs.2, w4, fun b => ?_⟩
  rw [r4, r3, r2, r1]
  by_cases hb : off ≤ b ∧ b < off + 4
  · rw [if_pos hb]
    obtain rfl | rfl | rfl | rfl : b = off ∨ b = off + 1 ∨ b = off + 2 ∨ b = off + 3 := by omega
    all_goals simp
  · rw [if_neg hb, if_neg (by omega), if_neg (by omega), if_neg (by omega), if_neg (by omega)]

theorem Memory.readByte_isSome {m : Memory} {a : Nat} (h : a < m.size) : m.readByte a = some (cellAt m.cells a) := by
  simp [Memory.readByte, h]

theorem Memory.read32_isSome {m : Memory} {off : Nat} (h : off + 4 ≤ m.size) : ∃ w, m.read32 off = some w := by
  unfold Memory.read32
  rw [Memory.readByte_isSome (by omega : off < m.size), Memory.readByte_isSome (by omega : off + 1 < m.size),
    Memory.readByte_isSome (by omega : off + 2 < m.size), Memory.readByte_isSome (by omega : off + 3 < m.size)]
  exact ⟨_, rfl⟩

/-- READWORDS succeeds inside the buffer. -/
theorem Memory.readWords_isSome {m : Memory} (n : Nat) {off : Nat} (h : off + 4 * n ≤ m.size) :
    ∃ ws, m.readWords off n = some ws ∧ ws.length = n := by
  induction n generalizing off with
  | zero => exact ⟨[], rfl, rfl⟩
  | succ n ih =>
    obtain ⟨w, hw⟩ := Memory.read32_isSome (m := m) (off := off) (by omega)
    obtain ⟨ws, hws, hlen⟩ := ih (off := off + 4) (by omega)
    exact ⟨w :: ws, by simp [Memory.readWords, hw, hws], by simp [hlen]⟩

theorem Memory.readWords_length {m : Memory} {n off : Nat} {ws : List Word} (h : m.readWords off n = some ws) :
    ws.length = n := by
  induction n generalizing off ws with
  | zero => cases h; rfl
  | succ n ih =>
    simp only [Memory.readWords, Option.bind_eq_some_iff, Option.map_eq_some_iff] at h
    obtain ⟨w, -, ws', h', rfl⟩ := h
    simp [ih h']

/-- Word `i` of READWORDS is the word at `off + 4*i` (R121). -/
theorem Memory.readWords_get {m : Memory} {n off : Nat} {ws : List Word} (h : m.readWords off n = some ws) {i : Nat}
    (hi : i < n) : m.read32 (off + 4 * i) = ws[i]? := by
  induction n generalizing off ws i with
  | zero => omega
  | succ n ih =>
    simp only [Memory.readWords, Option.bind_eq_some_iff, Option.map_eq_some_iff] at h
    obtain ⟨w, hw, ws', h', rfl⟩ := h
    cases i with
    | zero => simpa using hw
    | succ i =>
      rw [List.getElem?_cons_succ, ← ih h' (by omega)]
      congr 1
      omega

/-- READWORDS succeeds exactly where the region is available (R121, R133). -/
theorem readRegion_eq_some {m : Memory} {r : Region} {ws : List Word} (h : readRegion m r = some ws) :
    r.available m = true ∧ ws.length = r.length.toNat / 4 := by
  unfold readRegion at h
  split at h
  · exact ⟨by assumption, Memory.readWords_length h⟩
  · cases h

/-- SPLICE succeeds inside the buffer and keeps its size. -/
theorem Memory.writeWords_isSome {m : Memory} (ws : List Word) {off : Nat} (h : off + 4 * ws.length ≤ m.size) :
    ∃ m', m.writeWords off ws = some m' ∧ m'.size = m.size := by
  induction ws generalizing m off with
  | nil => exact ⟨m, rfl, rfl⟩
  | cons w ws ih =>
    simp only [List.length_cons] at h
    obtain ⟨m1, h1⟩ := Memory.write32_isSome (m := m) w (off := off) (by omega)
    have e1 := Memory.write32_size h1
    obtain ⟨m2, h2, e2⟩ := ih (m := m1) (off := off + 4) (by omega)
    exact ⟨m2, by simp [Memory.writeWords, h1, h2], by omega⟩

/-- All a run of word writes can do: same size, canonical if it was, every byte outside the run as before. -/
theorem Memory.writeWords_spec {m m' : Memory} {ws : List Word} {off : Nat} (hm : m.wf)
    (h : m.writeWords off ws = some m') :
    m'.size = m.size ∧ m'.wf ∧ ∀ b, b < off ∨ off + 4 * ws.length ≤ b → m'.readByte b = m.readByte b := by
  induction ws generalizing m off with
  | nil => cases h; exact ⟨rfl, hm, fun _ _ => rfl⟩
  | cons w ws ih =>
    simp only [Memory.writeWords, Option.bind_eq_some_iff] at h
    obtain ⟨m1, h1, h2⟩ := h
    obtain ⟨-, e1, w1, r1⟩ := Memory.write32_spec hm h1
    obtain ⟨e2, w2, r2⟩ := ih w1 h2
    refine ⟨by omega, w2, fun b hb => ?_⟩
    simp only [List.length_cons] at hb
    rw [r2 b (by omega), r1 b, if_neg (by omega)]

/-- SPLICE of as many words as the region has succeeds where the region is available (R138). -/
theorem spliceRegion_isSome {m : Memory} {r : Region} {ws : List Word} (h : r.available m = true)
    (hl : ws.length = r.length.toNat / 4) : ∃ m', spliceRegion m r ws = some m' := by
  simp only [Region.available, decide_eq_true_eq] at h
  obtain ⟨m', hm, -⟩ := Memory.writeWords_isSome (m := m) ws (off := r.fileOffset.toNat) (by omega)
  exact ⟨m', hm⟩

theorem spliceRegion_wf {m m' : Memory} {r : Region} {ws : List Word} (hm : m.wf) (h : spliceRegion m r ws = some m') :
    m'.wf := (Memory.writeWords_spec hm h).2.1

end Sys2Proof.Machine
end

