-- ==== Sys2Proof/Laws/Datapath.lean ====
section
/-! SUPPORT. The datapath functions bit by bit: what each of them puts at position `GROUP[j][k]`. -/

namespace Sys2Proof

@[simp] theorem bit_zero {n : Nat} (p : Nat) : bit (0#n) p = false := by simp [bit]

@[simp] theorem bit_or {n : Nat} (x y : BitVec n) (p : Nat) : bit (x ||| y) p = (bit x p || bit y p) := by simp [bit]

@[simp] theorem bit_and {n : Nat} (x y : BitVec n) (p : Nat) : bit (x &&& y) p = (bit x p && bit y p) := by simp [bit]

theorem bit_of_ge {n : Nat} (x : BitVec n) {p : Nat} (h : n ≤ p) : bit x p = false := BitVec.getLsbD_of_ge x p h

@[simp] theorem bit_not (x : Word) (p : Fin 32) : bit (~~~x) p.val = !bit x p.val := by simp [bit]

@[simp] theorem bit_allOnes (p : Fin 32) : bit (BitVec.allOnes 32) p.val = true := by
  rw [bit, BitVec.getLsbD_allOnes]; simp

theorem eq_of_bit {n : Nat} {x y : BitVec n} (h : ∀ p < n, bit x p = bit y p) : x = y :=
  BitVec.eq_of_getLsbD_eq fun p hp => h p hp

theorem bit_bitAt {n : Nat} (b : Bool) (p q : Nat) : bit (bitAt n b p) q = (b && decide (q < n) && decide (q = p)) := by
  unfold bit bitAt
  rw [BitVec.getLsbD_shiftLeft, BitVec.getLsbD_setWidth, BitVec.getLsbD_ofBool]
  rcases Nat.lt_trichotomy q p with h | h | h
  · simp [h, Nat.ne_of_lt h]
  · subst h; by_cases hq : q < n <;> simp [hq]; omega
  · have h1 : q ≠ p := by omega
    have h2 : q - p ≠ 0 := by omega
    simp [h1, h2]

theorem bit_orAll {n : Nat} (l : List (BitVec n)) (p : Nat) : bit (orAll l) p = l.any fun x => bit x p := by
  induction l with
  | nil => simp [orAll]
  | cons x xs ih => simp [orAll, ih]

/-- By R11 every pair `(j, k)` has its own position. -/
theorem Config.pos_inj (c : Config) {j j' : Fin 8} {k k' : Fin 4} (h : c.pos j k = c.pos j' k') : j = j' ∧ k = k' :=
  c.partition j j' k k' h

@[simp] theorem Config.pos_eq_iff (c : Config) {j j' : Fin 8} {k k' : Fin 4} :
    c.pos j k = c.pos j' k' ↔ j = j' ∧ k = k' :=
  ⟨c.pos_inj, by rintro ⟨rfl, rfl⟩; rfl⟩

/-- By R11 every position belongs to a pair `(j, k)`. -/
theorem Config.pos_surj (c : Config) (p : Fin 32) : ∃ j k, c.pos j k = p := by
  have hinj : Function.Injective fun q : Fin 8 × Fin 4 => c.pos q.1 q.2 := by
    intro q q' h
    exact Prod.ext (c.pos_inj h).1 (c.pos_inj h).2
  have hbij := (Fintype.bijective_iff_injective_and_card fun q : Fin 8 × Fin 4 => c.pos q.1 q.2).2 ⟨hinj, by simp⟩
  obtain ⟨q, hq⟩ := hbij.2 p
  exact ⟨q.1, q.2, hq⟩

namespace Machine

theorem mem_groups (j : Fin 8) : j ∈ groups := by revert j; decide

theorem mem_slots (k : Fin 4) : k ∈ slots := by revert k; decide

/-- Two words that agree at every `GROUP[j][k]` are equal (R71). -/
theorem word_ext (c : Config) {x y : Word} (h : ∀ j k, bit x (c.pos j k).val = bit y (c.pos j k).val) : x = y := by
  apply eq_of_bit
  intro p hp
  obtain ⟨j, k, hjk⟩ := c.pos_surj ⟨p, hp⟩
  simpa [hjk] using h j k

theorem nibble_ext {x y : Nibble} (h : ∀ k : Fin 4, bit x k.val = bit y k.val) : x = y :=
  eq_of_bit fun p hp => h ⟨p, hp⟩

@[simp] theorem bit_gather (c : Config) (w : Word) (j : Fin 8) (k : Fin 4) :
    bit (gather c w j) k.val = bit w (c.pos j k).val := by
  rw [Bool.eq_iff_iff]
  simp only [gather, bit_orAll, List.any_map, List.any_eq_true, Function.comp, bit_bitAt, Bool.and_eq_true, decide_eq_true_eq]
  constructor
  · rintro ⟨i, -, ⟨h, -⟩, hi⟩
    rwa [Fin.ext hi]
  · intro h
    exact ⟨k, mem_slots k, ⟨h, k.isLt⟩, rfl⟩

theorem bit_scatter (c : Config) (j i : Fin 8) (s : Nibble) (k : Fin 4) :
    bit (scatter c j s) (c.pos i k).val = (decide (j = i) && bit s k.val) := by
  rw [Bool.eq_iff_iff]
  simp only [scatter, bit_orAll, List.any_map, List.any_eq_true, Function.comp, bit_bitAt, Bool.and_eq_true, decide_eq_true_eq]
  constructor
  · rintro ⟨k', -, ⟨h, -⟩, hp⟩
    obtain ⟨rfl, rfl⟩ := c.pos_inj (Fin.ext hp)
    exact ⟨rfl, h⟩
  · rintro ⟨rfl, h⟩
    exact ⟨k, mem_slots k, ⟨h, (c.pos j k).isLt⟩, rfl⟩

theorem bit_gmask (c : Config) (j i : Fin 8) (k : Fin 4) : bit (gmask c j) (c.pos i k).val = decide (j = i) := by
  rw [Bool.eq_iff_iff]
  simp only [gmask, bit_orAll, List.any_map, List.any_eq_true, Function.comp, bit_bitAt, Bool.and_eq_true, decide_eq_true_eq]
  constructor
  · rintro ⟨k', -, -, hp⟩
    exact (c.pos_inj (Fin.ext hp)).1.symm
  · rintro rfl
    exact ⟨k, mem_slots k, ⟨trivial, (c.pos j k).isLt⟩, rfl⟩

theorem bit_orAll_groups {n : Nat} (f : Fin 8 → BitVec n) (p : Nat) :
    bit (orAll (groups.map f)) p = true ↔ ∃ j, bit (f j) p = true := by
  simp only [bit_orAll, List.any_map, List.any_eq_true, Function.comp]
  exact ⟨fun ⟨j, _, h⟩ => ⟨j, h⟩, fun ⟨j, h⟩ => ⟨j, mem_groups j, h⟩⟩

theorem bit_lanePlain (c : Config) (w : Word) (j i : Fin 8) (k : Fin 4) :
    bit (lanePlain c w j) (c.pos i k).val =
      (decide (j = i) && match laneEntry c w j with | .resolved s => bit s k.val | .unresolved => false) := by
  unfold lanePlain
  split <;> simp [*, bit_scatter]

theorem bit_laneMask (c : Config) (w : Word) (j i : Fin 8) (k : Fin 4) :
    bit (laneMask c w j) (c.pos i k).val = (decide (j = i) && ucmp (laneEntry c w j)) := by
  unfold laneMask
  split <;> simp [*, ucmp, bit_gmask]

/-- PLAINW at a position of group `j` (R76, R77, R79). -/
theorem bit_plainw (c : Config) (w : Word) (j : Fin 8) (k : Fin 4) :
    bit (plainw c w) (c.pos j k).val = match laneEntry c w j with | .resolved s => bit s k.val | .unresolved => false := by
  rw [Bool.eq_iff_iff]
  simp [plainw, bit_orAll_groups, bit_lanePlain]

/-- UNRESW at a position of group `j` (R76, R78, R79). -/
theorem bit_unresw (c : Config) (w : Word) (j : Fin 8) (k : Fin 4) :
    bit (unresw c w) (c.pos j k).val = ucmp (laneEntry c w j) := by
  rw [Bool.eq_iff_iff]
  simp [unresw, bit_orAll_groups, bit_laneMask]

/-- GUW bit by bit (R74). -/
@[simp] theorem bit_guw (c : Config) (w : Word) (j : Fin 8) : bit (guw c w) j.val = ucmp (laneEntry c w j) := by
  rw [Bool.eq_iff_iff]
  simp only [guw, bit_orAll_groups, bit_bitAt, Bool.and_eq_true, decide_eq_true_eq]
  constructor
  · rintro ⟨i, ⟨h, -⟩, hi⟩
    rwa [Fin.ext hi]
  · intro h
    exact ⟨j, ⟨h, j.isLt⟩, rfl⟩

theorem bit_maskOfGroups (c : Config) (g : BitVec 8) (j : Fin 8) (k : Fin 4) :
    bit (maskOfGroups c g) (c.pos j k).val = bit g j.val := by
  rw [Bool.eq_iff_iff]
  simp only [maskOfGroups, bit_orAll_groups]
  constructor
  · rintro ⟨i, h⟩
    by_cases hg : bit g i.val
    · have hij : i = j := by simpa [hg, bit_gmask] using h
      rwa [← hij]
    · simp [hg] at h
  · intro h
    exact ⟨j, by simp [h, bit_gmask]⟩

theorem anyu_eq_true (c : Config) (w : Word) : anyu c w = true ↔ ∃ j, ucmp (laneEntry c w j) = true := by
  simp only [anyu, bne_iff_ne, ne_eq]
  constructor
  · intro h
    by_contra hn
    push Not at hn
    refine h (word_ext c fun j k => ?_)
    rw [bit_unresw]
    simpa using hn j
  · rintro ⟨j, hj⟩ h
    have := bit_unresw c w j 0
    simp [h, hj] at this

/-- GATHER reads only its own lane of the plaintext word (R75, R82). -/
theorem gather_plainw (c : Config) (w : Word) (j : Fin 8) :
    gather c (plainw c w) j = match laneEntry c w j with | .resolved s => s | .unresolved => 0 := by
  refine nibble_ext fun k => ?_
  rw [bit_gather, bit_plainw]
  cases laneEntry c w j <;> simp

end Machine

end Sys2Proof
end

