-- ==== Sys2Proof/Laws/PerInstr.lean ====
section
/-! SUPPORT. The per-command family EncodingMatch: a command's word under the mask of its row of the opcode table is the
row's match. -/

namespace Sys2Proof.Laws.EncodingMatch

/-- The mask of every row of the opcode table (30_encoding.md section 8). -/
def mask : CommandWord := 0x30000000000000000

/-- The match of a command's row (30_encoding.md section 8). -/
def tableMatch : Instr → CommandWord
  | .idle _ => 0x00000000000000000
  | .setbase _ => 0x10000000000000000
  | .descr _ _ => 0x20000000000000000
  | .rsvd _ => 0x30000000000000000

/-- The encoding of a command meets its row's match and mask. -/
def Statement (i : Instr) : Prop := encode i &&& mask = tableMatch i

theorem append_mask (cmd : BitVec 2) (din : BitVec 64) : (cmd ++ din : BitVec 66) &&& (3#2 ++ 0#64 : BitVec 66) = cmd ++ 0#64 := by
  apply BitVec.eq_of_getLsbD_eq
  intro p hp
  rw [BitVec.getLsbD_and, BitVec.getLsbD_append, BitVec.getLsbD_append, BitVec.getLsbD_append]
  by_cases h : p < 64
  · simp [h]
  · obtain h1 | h1 : p - 64 = 0 ∨ p - 64 = 1 := by omega
    all_goals simp [h, h1]

theorem idle (din : BitVec 64) : Statement (.idle din) := append_mask 0b00 din

theorem setbase (a : Addr) : Statement (.setbase a) := append_mask 0b01 a

theorem descr (hi w : Word) : Statement (.descr hi w) := append_mask 0b10 (hi ++ w)

theorem rsvd (din : BitVec 64) : Statement (.rsvd din) := append_mask 0b11 din

end Sys2Proof.Laws.EncodingMatch
end

