-- ==== Sys2Proof/Laws/State.lean ====
section
/-! SUPPORT. What each update of the state leaves in each field, so that no proof unfolds a record update. -/

namespace Sys2Proof.Machine

@[simp] theorem State.startSequence_cfg (s : State) (a : Addr) : (s.startSequence a).cfg = s.cfg := rfl
@[simp] theorem State.startSequence_base (s : State) (a : Addr) : (s.startSequence a).base = some a := rfl
@[simp] theorem State.startSequence_idx (s : State) (a : Addr) : (s.startSequence a).idx = 0 := rfl
@[simp] theorem State.startSequence_outlog (s : State) (a : Addr) : (s.startSequence a).outlog = s.outlog := rfl
@[simp] theorem State.startSequence_diaglog (s : State) (a : Addr) : (s.startSequence a).diaglog = s.diaglog := rfl
@[simp] theorem State.startSequence_port (s : State) (a : Addr) : (s.startSequence a).port = s.port := rfl
@[simp] theorem State.startSequence_driver (s : State) (a : Addr) : (s.startSequence a).driver = s.driver := rfl

@[simp] theorem State.emitOut_cfg (s : State) (p : Word) : (s.emitOut p).cfg = s.cfg := rfl
@[simp] theorem State.emitOut_base (s : State) (p : Word) : (s.emitOut p).base = s.base := rfl
@[simp] theorem State.emitOut_idx (s : State) (p : Word) : (s.emitOut p).idx = s.idx := rfl
@[simp] theorem State.emitOut_outlog (s : State) (p : Word) : (s.emitOut p).outlog = s.outlog ++ [p] := rfl
@[simp] theorem State.emitOut_diaglog (s : State) (p : Word) : (s.emitOut p).diaglog = s.diaglog := rfl
@[simp] theorem State.emitOut_port (s : State) (p : Word) : (s.emitOut p).port = s.port := rfl
@[simp] theorem State.emitOut_driver (s : State) (p : Word) : (s.emitOut p).driver = s.driver := rfl

@[simp] theorem State.emitDiag_cfg (s : State) (r : DiagRec) : (s.emitDiag r).cfg = s.cfg := rfl
@[simp] theorem State.emitDiag_base (s : State) (r : DiagRec) : (s.emitDiag r).base = s.base := rfl
@[simp] theorem State.emitDiag_idx (s : State) (r : DiagRec) : (s.emitDiag r).idx = s.idx := rfl
@[simp] theorem State.emitDiag_outlog (s : State) (r : DiagRec) : (s.emitDiag r).outlog = s.outlog := rfl
@[simp] theorem State.emitDiag_diaglog (s : State) (r : DiagRec) : (s.emitDiag r).diaglog = s.diaglog ++ [r] := rfl
@[simp] theorem State.emitDiag_port (s : State) (r : DiagRec) : (s.emitDiag r).port = s.port := rfl
@[simp] theorem State.emitDiag_driver (s : State) (r : DiagRec) : (s.emitDiag r).driver = s.driver := rfl

@[simp] theorem State.advance_cfg (s : State) : (s.advance).cfg = s.cfg := rfl
@[simp] theorem State.advance_base (s : State) : (s.advance).base = s.base := rfl
@[simp] theorem State.advance_idx (s : State) : (s.advance).idx = s.idx + 1 := rfl
@[simp] theorem State.advance_outlog (s : State) : (s.advance).outlog = s.outlog := rfl
@[simp] theorem State.advance_diaglog (s : State) : (s.advance).diaglog = s.diaglog := rfl
@[simp] theorem State.advance_port (s : State) : (s.advance).port = s.port := rfl
@[simp] theorem State.advance_driver (s : State) : (s.advance).driver = s.driver := rfl

@[simp] theorem State.applyReset_cfg (s : State) : (s.applyReset).cfg = s.cfg := rfl
@[simp] theorem State.applyReset_base (s : State) : (s.applyReset).base = none := rfl
@[simp] theorem State.applyReset_idx (s : State) : (s.applyReset).idx = 0 := rfl
@[simp] theorem State.applyReset_outlog (s : State) : (s.applyReset).outlog = [] := rfl
@[simp] theorem State.applyReset_diaglog (s : State) : (s.applyReset).diaglog = [] := rfl
@[simp] theorem State.applyReset_port (s : State) : (s.applyReset).port = s.port := rfl
@[simp] theorem State.applyReset_driver (s : State) : (s.applyReset).driver = s.driver := rfl

@[simp] theorem State.withPort_cfg (s : State) (l : List PortInput) : (s.withPort l).cfg = s.cfg := rfl
@[simp] theorem State.withPort_base (s : State) (l : List PortInput) : (s.withPort l).base = s.base := rfl
@[simp] theorem State.withPort_idx (s : State) (l : List PortInput) : (s.withPort l).idx = s.idx := rfl
@[simp] theorem State.withPort_outlog (s : State) (l : List PortInput) : (s.withPort l).outlog = s.outlog := rfl
@[simp] theorem State.withPort_diaglog (s : State) (l : List PortInput) : (s.withPort l).diaglog = s.diaglog := rfl
@[simp] theorem State.withPort_port (s : State) (l : List PortInput) : (s.withPort l).port = l := rfl
@[simp] theorem State.withPort_driver (s : State) (l : List PortInput) : (s.withPort l).driver = s.driver := rfl

@[simp] theorem State.present_cfg (s : State) (l : List PortInput) : (s.present l).cfg = s.cfg := rfl
@[simp] theorem State.present_base (s : State) (l : List PortInput) : (s.present l).base = s.base := rfl
@[simp] theorem State.present_idx (s : State) (l : List PortInput) : (s.present l).idx = s.idx := rfl
@[simp] theorem State.present_outlog (s : State) (l : List PortInput) : (s.present l).outlog = s.outlog := rfl
@[simp] theorem State.present_diaglog (s : State) (l : List PortInput) : (s.present l).diaglog = s.diaglog := rfl
@[simp] theorem State.present_port (s : State) (l : List PortInput) : (s.present l).port = s.port ++ l := rfl
@[simp] theorem State.present_driver (s : State) (l : List PortInput) : (s.present l).driver = s.driver := rfl

@[simp] theorem State.withDriver_cfg (s : State) (d : Driver) : (s.withDriver d).cfg = s.cfg := rfl
@[simp] theorem State.withDriver_base (s : State) (d : Driver) : (s.withDriver d).base = s.base := rfl
@[simp] theorem State.withDriver_idx (s : State) (d : Driver) : (s.withDriver d).idx = s.idx := rfl
@[simp] theorem State.withDriver_outlog (s : State) (d : Driver) : (s.withDriver d).outlog = s.outlog := rfl
@[simp] theorem State.withDriver_diaglog (s : State) (d : Driver) : (s.withDriver d).diaglog = s.diaglog := rfl
@[simp] theorem State.withDriver_port (s : State) (d : Driver) : (s.withDriver d).port = s.port := rfl
@[simp] theorem State.withDriver_driver (s : State) (d : Driver) : (s.withDriver d).driver = d := rfl

@[simp] theorem State.emit_cfg (s : State) (p : OutPorts) : (s.emit p).cfg = s.cfg := by
  unfold State.emit; split <;> simp
@[simp] theorem State.emit_base (s : State) (p : OutPorts) : (s.emit p).base = s.base := by
  unfold State.emit; split <;> simp
@[simp] theorem State.emit_idx (s : State) (p : OutPorts) : (s.emit p).idx = s.idx := by
  unfold State.emit; split <;> simp
@[simp] theorem State.emit_outlog (s : State) (p : OutPorts) : (s.emit p).outlog = s.outlog ++ [p.plain] := by
  unfold State.emit; split <;> simp
@[simp] theorem State.emit_diaglog (s : State) (p : OutPorts) : (s.emit p).diaglog = s.diaglog ++ if p.diagValid then [p.record] else [] := by
  unfold State.emit; split <;> simp
@[simp] theorem State.emit_port (s : State) (p : OutPorts) : (s.emit p).port = s.port := by
  unfold State.emit; split <;> simp
@[simp] theorem State.emit_driver (s : State) (p : OutPorts) : (s.emit p).driver = s.driver := by
  unfold State.emit; split <;> simp

@[simp] theorem State.withPort_self (s : State) : s.withPort s.port = s := rfl

@[simp] theorem State.withPort_withPort (s : State) (l l' : List PortInput) : (s.withPort l).withPort l' = s.withPort l' := rfl

theorem State.bv_eq_true (s : State) : s.bv = true ↔ ∃ b, s.base = some b := Option.isSome_iff_exists

theorem State.bv_eq_false (s : State) : s.bv = false ↔ s.base = none := by simp [State.bv]

end Sys2Proof.Machine
end

