-- ==== Sys2Proof/Laws/Step.lean ====
section
/-! SUPPORT. What a command, a stage of the host and a step can do, said once; how runs compose. -/

namespace Sys2Proof.Machine

/-- All that a command with a next state can have done (R90 to R92). -/
theorem exec_cases {i : Instr} {s t : State} (h : exec i s = .next t) :
    (∃ d, i = .idle d ∧ t = s) ∨ (∃ a, i = .setbase a ∧ t = s.startSequence a) ∨
      ∃ hi w b, i = .descr hi w ∧ s.base = some b ∧ t = (s.emit (descrPorts s.cfg b s.idx w)).advance := by
  cases i with
  | idle d => cases h; exact .inl ⟨d, rfl, rfl⟩
  | setbase a => cases h; exact .inr (.inl ⟨a, rfl, rfl⟩)
  | descr hi w =>
    simp only [exec, execDescr] at h
    split at h
    · cases h
    · rename_i b hb
      cases h
      exact .inr (.inr ⟨hi, w, b, rfl, hb, rfl⟩)
  | rsvd d => cases h

/-- A command leaves the configuration, the port and the host as they were. -/
theorem exec_frame {i : Instr} {s t : State} (h : exec i s = .next t) :
    t.cfg = s.cfg ∧ t.port = s.port ∧ t.driver = s.driver := by
  obtain ⟨d, -, rfl⟩ | ⟨a, -, rfl⟩ | ⟨hi, w, b, -, -, rfl⟩ := exec_cases h <;> simp

/-- A command's effect does not depend on what else stands at the port. -/
theorem exec_withPort {i : Instr} {s t : State} (l : List PortInput) (h : exec i s = .next t) :
    exec i (s.withPort l) = .next (t.withPort l) := by
  obtain ⟨d, rfl, rfl⟩ | ⟨a, rfl, rfl⟩ | ⟨hi, w, b, rfl, hb, rfl⟩ := exec_cases h
  · rfl
  · rfl
  · simp only [exec, execDescr, State.withPort_base, hb, State.withPort_cfg, State.withPort_idx]
    unfold State.emit
    split <;> rfl

theorem exec_withPort_refused {i : Instr} {s : State} {r : Refusal} (l : List PortInput) (h : exec i s = .refused r) :
    exec i (s.withPort l) = .refused r := by
  cases i with
  | idle d => cases h
  | setbase a => cases h
  | descr hi w =>
    simp only [exec, execDescr, State.withPort_base] at h ⊢
    split at h <;> simp_all
  | rsvd d => exact h

/-- A command never faults (R96, R136). -/
theorem exec_ne_fault (i : Instr) (s : State) (f : Fault) : exec i s ≠ .fault f := by
  cases i with
  | idle d => exact nofun
  | setbase a => exact nofun
  | descr hi w => simp only [exec, execDescr]; split <;> exact nofun
  | rsvd d => exact nofun

/-- All that a stage of the host with a next state can have done: it moves its driver, and DRIVE presents its inputs; the
block's registers, logs and configuration stay. -/
theorem driverStep_cases {s t : State} (h : driverStep s = .next t) :
    t = s ∨ (∃ d, t = s.withDriver d) ∨
      ∃ r ws, s.driver.stage = .drive r ws ∧ t = (s.present (driveInputs r ws)).withDriver (s.driver.goto (.splice r)) := by
  unfold driverStep at h
  simp only at h
  split at h
  case h_5 => split at h <;> cases h; exact .inr (.inl ⟨_, rfl⟩)
  case h_6 => split at h <;> cases h; exact .inr (.inl ⟨_, rfl⟩)
  case h_8 => split at h <;> cases h; exact .inr (.inl ⟨_, rfl⟩)
  all_goals first
    | (cases h; exact .inl rfl)
    | (cases h; exact .inr (.inl ⟨_, rfl⟩))
    | (cases h; exact .inr (.inr ⟨_, _, by assumption, rfl⟩))
    | cases h

/-- A stage of the host leaves the block's registers, logs and configuration as they were. -/
theorem driverStep_frame {s t : State} (h : driverStep s = .next t) :
    t.cfg = s.cfg ∧ t.base = s.base ∧ t.idx = s.idx ∧ t.outlog = s.outlog ∧ t.diaglog = s.diaglog := by
  obtain rfl | ⟨d, rfl⟩ | ⟨r, ws, -, rfl⟩ := driverStep_cases h <;> simp

/-- The host refuses nothing (R136). -/
theorem driverStep_ne_refused (s : State) (r : Refusal) : driverStep s ≠ .refused r := by
  unfold driverStep
  simp only
  repeat' split
  all_goals exact nofun

/-- The stages in which the host can fault (R130). -/
theorem driverStep_fault_cases {s : State} {f : Fault} (h : driverStep s = .fault f) :
    s.driver.stage = .parse .malformed ∨ (∃ symbols segs, s.driver.stage = .locate symbols segs) ∨
      (∃ r, s.driver.stage = .readWords r) ∨
      ∃ r, s.driver.stage = .splice r ∧ spliceRegion s.driver.buffer r s.outlog = none := by
  unfold driverStep at h
  simp only at h
  split at h
  case h_3 hs => exact .inl hs
  case h_5 a b hs => exact .inr (.inl ⟨a, b, hs⟩)
  case h_6 r hs => exact .inr (.inr (.inl ⟨r, hs⟩))
  case h_8 r hs =>
    split at h
    · exact .inr (.inr (.inr ⟨r, hs, by assumption⟩))
    · cases h
  all_goals cases h

/-- What a step does, by what stands first at the port. -/
theorem step_nil {s : State} (h : s.port = []) : step s = driverStep s := by simp [step, h]

theorem step_rst {s : State} {rest : List PortInput} (h : s.port = .rst :: rest) :
    step s = .next (s.withPort rest).applyReset := by simp [step, h]

theorem step_command {s : State} {cw : CommandWord} {rest : List PortInput} (h : s.port = .command cw :: rest) :
    step s = exec (decode cw) (s.withPort rest) := by simp [step, h]

/-- All that a step with a next state can have done: a stage of the host, RESET, or a command. -/
theorem step_cases {s t : State} (h : step s = .next t) :
    (s.port = [] ∧ driverStep s = .next t) ∨
      (∃ rest, s.port = .rst :: rest ∧ t = (s.withPort rest).applyReset) ∨
      ∃ cw rest, s.port = .command cw :: rest ∧ exec (decode cw) (s.withPort rest) = .next t := by
  unfold step at h
  split at h
  · exact .inl ⟨by assumption, h⟩
  · cases h; exact .inr (.inl ⟨_, by assumption, rfl⟩)
  · exact .inr (.inr ⟨_, _, by assumption, h⟩)

theorem step_withPort_rst (s : State) (rest : List PortInput) :
    step (s.withPort (.rst :: rest)) = .next (s.withPort rest).applyReset := rfl

theorem step_withPort_command (s : State) (cw : CommandWord) (rest : List PortInput) :
    step (s.withPort (.command cw :: rest)) = exec (decode cw) (s.withPort rest) := rfl

@[simp] theorem run_zero (s : State) : run 0 s = .next s := rfl

theorem run_succ_next {n : Nat} {s t : State} (h : step s = .next t) : run (n + 1) s = run n t := by simp [run, h]

theorem run_succ_refused {n : Nat} {s : State} {r : Refusal} (h : step s = .refused r) : run (n + 1) s = .refused r := by
  simp [run, h]

/-- Runs compose. -/
theorem run_add {m n : Nat} {s t : State} (h : run m s = .next t) : run (m + n) s = run n t := by
  induction m generalizing s with
  | zero => cases h; simp
  | succ m ih =>
    rw [Nat.add_right_comm]
    simp only [run] at h ⊢
    cases hs : step s with
    | next u => rw [hs] at h; exact ih h
    | fault r => rw [hs] at h; cases h
    | refused r => rw [hs] at h; cases h

/-- A refused run stays refused, however many steps are asked for (R135). -/
theorem run_refused_add {m : Nat} {s : State} {r : Refusal} (n : Nat) (h : run m s = .refused r) :
    run (m + n) s = .refused r := by
  induction m generalizing s with
  | zero => cases h
  | succ m ih =>
    rw [Nat.add_right_comm]
    simp only [run] at h ⊢
    cases hs : step s with
    | next u => rw [hs] at h; exact ih h
    | fault f => rw [hs] at h; cases h
    | refused q => rw [hs] at h; exact h

theorem core_run_succ (M : Host.Core) (n : Nat) (s : M.State) :
    M.run (n + 1) s =
      match M.step s with
      | .next t => M.run n t
      | .fault r => .fault r
      | .refused r => .refused r := by
  cases h : M.step s <;> simp only [Host.Core.run, h]

/-- The package's runs are the host's. -/
theorem run_eq_core (n : Nat) (s : State) : run n s = Host.Core.run Sys2Proof.core n s := by
  induction n generalizing s with
  | zero => rfl
  | succ n ih =>
    have hcore : Sys2Proof.core.step s = step s := rfl
    refine Eq.trans ?_ (core_run_succ Sys2Proof.core n s).symm
    rw [run, hcore]
    cases step s with
    | next t => exact ih t
    | fault r => rfl
    | refused r => rfl

end Sys2Proof.Machine
end

