-- ==== Sys2Proof/Tests/Slice0.lean ====
section
/-! SUPPORT. Tests, their expected results taken from 95_test_vectors.md or worked by hand from the rules, and for every
statement with hypotheses a witness that meets them. CFG_A, CFG_B, CFG_C are the spec's own test data, not a device's. -/

namespace Sys2Proof.Tests

open Sys2Proof.Machine

/-- CFG_A of 95_test_vectors.md section 2. -/
def cfgA : Config where
  group := Vector.ofFn fun j : Fin 8 => Vector.ofFn fun k : Fin 4 => ⟨4 * j.val + k.val, by omega⟩
  sbox := Vector.ofFn fun _ : Fin 8 => Vector.ofFn fun v : Fin 16 => .resolved (BitVec.ofNat 4 v.val)
  markerName := ['m']
  partition := by decide

/-- CFG_B of 95_test_vectors.md section 2. -/
def cfgB : Config where
  group := Vector.ofFn fun j : Fin 8 => Vector.ofFn fun k : Fin 4 => ⟨j.val + 8 * k.val, by omega⟩
  sbox := Vector.ofFn fun j : Fin 8 => Vector.ofFn fun v : Fin 16 =>
    if (j.val, v.val) ∈ [(0, 15), (3, 9), (5, 0)] then .unresolved
    else .resolved (BitVec.ofNat 4 (7 * v.val + 3 * j.val))
  markerName := ['m']
  partition := by decide

/-- CFG_C of 95_test_vectors.md section 2. -/
def cfgC : Config where
  group := Vector.ofFn fun j : Fin 8 => Vector.ofFn fun k : Fin 4 => ⟨(11 * (4 * j.val + k.val) + 5) % 32, by omega⟩
  sbox := Vector.ofFn fun j : Fin 8 => Vector.ofFn fun v : Fin 16 =>
    if (j.val, v.val) ∈ [(2, 5), (6, 10), (6, 11)] then .unresolved
    else .resolved (BitVec.ofNat 4 (v.val * (v.val + j.val + 1)))
  markerName := ['m']
  partition := by decide

/-- All entries unresolved (95_test_vectors.md section 3.6), wired as CFG_A. -/
def cfgU : Config := { cfgA with sbox := Vector.replicate 8 (Vector.replicate 16 .unresolved) }

/-- CFG_A with positions 0 and 1 exchanged in group 0. -/
def cfgS : Config where
  group := cfgA.group.set 0 #v[1, 0, 2, 3]
  sbox := cfgA.sbox
  markerName := cfgA.markerName
  partition := by decide

/-- A state under a configuration, with empty logs, nothing presented and no image. -/
def st (c : Config) (base : Option Addr) (idx : Addr) : State :=
  { cfg := c, base := base, idx := idx, outlog := [], diaglog := [], port := [], driver := Driver.initial }

/-- The registers and logs of a next state. -/
def blockOf : Host.Outcome State Fault Refusal → Option (Option Addr × Addr × List Word × List DiagRec)
  | .next s => some (s.base, s.idx, s.outlog, s.diaglog)
  | .fault _ => none
  | .refused _ => none

/-! ### Ill-formed terms are refused -/

theorem test_wf_setbase_bound : (Line.setbase (2 ^ 64)).WellFormed = false ∧ (Line.setbase (2 ^ 64 - 1)).WellFormed = true := by
  decide

theorem test_wf_descr_bound : (Line.descr (2 ^ 32)).WellFormed = false ∧ (Line.descr (2 ^ 32 - 1)).WellFormed = true := by
  decide

theorem test_wf_descramble_bound :
    (Line.descramble 0 [1, 2 ^ 32]).WellFormed = false ∧ (Line.descramble (2 ^ 64) []).WellFormed = false := by decide

/-- A GROUP that repeats a position is no configuration (R11). -/
theorem test_wf_group_repeats :
    GroupTable.wellFormed (cfgA.group.set 0 #v[0, 1, 2, 4]) = false ∧ GroupTable.wellFormed cfgC.group = true := by decide

theorem test_wf_memory_unsorted : ¬Memory.wf { size := 8, cells := [(3, 1), (2, 1)] } := by decide

theorem test_wf_memory_lists_zero : ¬Memory.wf { size := 8, cells := [(3, 0)] } := by decide

theorem test_wf_memory_outside : ¬Memory.wf { size := 8, cells := [(8, 1)] } := by decide

/-! ### Decoding: words written out from 30_encoding.md rules R50, R51 -/

theorem test_decode_idle :
    decode 0b001111111111111111111111111111111111111111111111111111111111111111#66 = .idle 0xFFFFFFFFFFFFFFFF := by decide

theorem test_decode_setbase :
    decode 0b010000000000000000000000000000000010100000000000000001101100000000#66 = .setbase 0xA0001B00 := by decide

theorem test_decode_descr :
    decode 0b101000000000000000000000000000000000010010001101000101011001111000#66 = .descr 0x80000000 0x12345678 := by decide

theorem test_decode_rsvd :
    decode 0b110000000000000000000000000000000000000000000000000000000000000001#66 = .rsvd 1 := by decide

theorem test_decode_too_wide : decodeTableWord 72 0x40000000000000000 = none := by decide

/-- 95_test_vectors.md section 3.5: Resolved(9) is 0x09, the reserved pattern 0x17 reads as Unresolved. -/
theorem test_rom_patterns : Entry.ofPattern 0x09 = .resolved 9 ∧ Entry.ofPattern 0x17 = .unresolved := by decide

/-! ### The datapath: 95_test_vectors.md section 3 -/

theorem test_gather_cfgB : gather cfgB 0x12345678 1 = 10 := by decide

theorem test_scatter_cfgC : scatter cfgC 3 6 = 0x80100000 := by decide

theorem test_dword_cfgB : dword cfgB 0x09010109 = { plain := 0x10944682, unres := 0x29292929, gu := 0x29, any := true } := by
  decide

theorem test_dword_cfgC : dword cfgC 0x21084000 = { plain := 0, unres := 0x61086108, gu := 0x44, any := true } := by decide

theorem test_mux_cfgC : inv cfgC 22 = (4, 3) ∧ muxPlainBit cfgC 1 22 = true ∧ muxPlainBit cfgC 1 21 = false := by decide

/-! ### The commands: 95_test_vectors.md section 4 (the vector's number in each name) -/

theorem test_idle_k2 : blockOf (exec (.idle 0) (st cfgB (some 0x11FC) 7)) = some (some 0x11FC, 7, [], []) := by decide

theorem test_idle_k3 :
    blockOf (step ((st cfgB (some 0x11FC) 7).withFetchWord 72 0x0FFFFFFFFFFFFFFFF)) = some (some 0x11FC, 7, [], []) := by decide

theorem test_setbase_k4 :
    blockOf (step ((st cfgB none 0).withFetchWord 72 0x100000000A0001B00)) = some (some 0xA0001B00, 0, [], []) := by decide

theorem test_setbase_k5 : blockOf (exec (.setbase 0x11FC) (st cfgB (some 0xA0001B00) 5)) = some (some 0x11FC, 0, [], []) := by
  decide

theorem test_descr_k6 :
    blockOf (step ((st cfgB (some 0xA0001B00) 2).withFetchWord 72 0x20000000000000000)) =
      some (some 0xA0001B00, 3, [0x1894468A], [⟨0xA0001B08, 0x1894468A, 0x20202020⟩]) := by decide

theorem test_descr_k12 :
    blockOf (exec (.descr 0 0x12345678) (st cfgB (some 0x1000) 0xFFFFFFFFFFFFFFFF)) =
      some (some 0x1000, 0, [0x02D060D2], []) := by decide

theorem test_rsvd_k10 : step ((st cfgB (some 0x1000) 0).withFetchWord 72 0x30000000000000000) = .refused .reservedCommand := rfl

theorem test_descr_k9 : step ((st cfgB none 0).withFetchWord 72 0x20000000012345678) = .refused .baseUnset := rfl

/-- The vectors K6 and K7: with and without a record. -/
theorem test_events_descr :
    events (.descr 0 0) (st cfgB (some 0xA0001B00) 2) =
      [.out 0x1894468A, .diag ⟨0xA0001B08, 0x1894468A, 0x20202020⟩] ∧
    events (.descr 0 0x12345678) (st cfgB (some 0xA0001B00) 0) = [.out 0x02D060D2] := by decide

/-- The vector K14: the `rst` pin. -/
theorem test_reset_k14 :
    blockOf (step { st cfgB (some 0x11FC) 9 with outlog := [1], diaglog := [⟨1, 2, 3⟩], port := [.rst] }) =
      some (none, 0, [], []) := by decide

/-! ### Texts: 95_test_vectors.md section 5, 30_encoding.md rule R62 -/

theorem test_line_low : diagLine ⟨0x11FC, 0xE696CC54, 0x01010101⟩ =
    "000011fc e696cc54 1110011x1001011x1100110x0101010x\n".toList := by decide

theorem test_line_wide_address : diagLine ⟨0x100000004, 0x10944682, 0x29292929⟩ =
    "100000004 10944682 00x1x00x10x1x10x01x0x11x10x0x01x\n".toList := by decide

theorem test_parse_setbase : parseLine "SetBase 0xA0001b00".toList = some (.setbase 0xA0001B00) := by decide

theorem test_parse_descramble : parseLine "descramble 16, 0x2, 3".toList = some (.descramble 16 [2, 3]) := by decide

theorem test_parse_rejects : parseLine "descr".toList = none ∧ parseLine "setbase 0x".toList = none := by decide

/-! ### The host: 95_test_vectors.md section 6 -/

/-- The vector H2 (the source's case S5 as corrected by conflict C1). -/
theorem test_locate_h2 : locate firstLoadable ['m'] (some [['a'], ['m']]) [⟨0x1000, 0x400, 0x8000⟩] =
    .ok ⟨0x2b00, 0x1f00, 0x2000⟩ := by rfl

/-- The vector H5: a segment of size 0 is skipped. -/
theorem test_locate_h5 : locate firstLoadable ['m'] none [⟨0, 0, 0⟩, ⟨0x8000, 0x1000, 0x3000⟩] =
    .ok ⟨0x81fc, 0x11fc, 0x2000⟩ := by rfl

/-- A buffer of 8 bytes: 00 78 56 34 12 00 00 00. -/
def buf : Memory := { size := 8, cells := [(1, 0x78), (2, 0x56), (3, 0x34), (4, 0x12)] }

theorem test_read_little_endian : buf.read32 1 = some 0x12345678 := by decide

theorem test_write_little_endian : buf.write32 1 0x82050A49 =
    some { size := 8, cells := [(1, 0x49), (2, 0x0a), (3, 0x05), (4, 0x82)] } := by decide

/-- Writing what an unlisted offset reads as removes the entry; past the end there is no byte. -/
theorem test_write_keeps_canonical_form :
    buf.writeByte 2 0 = some { size := 8, cells := [(1, 0x78), (3, 0x34), (4, 0x12)] } ∧ buf.read32 5 = none := by decide

/-- 95_test_vectors.md section 6.3: one byte short is truncated. -/
theorem test_truncated :
    Region.available ⟨0x11fc, 0x5fc, 0x2000⟩ { size := 0x25fc, cells := [] } = true ∧
    Region.available ⟨0x11fc, 0x5fc, 0x2000⟩ { size := 0x25fb, cells := [] } = false := by decide

/-! ### Witnesses: the hypotheses of the statements can be met -/

/-- DecodeOfEncode. -/
theorem witness_well_formed_command : (Instr.descr 1 2).WellFormed = true := by decide

/-- SetMaskBijection. -/
theorem witness_sorted_positions : [(3 : Fin 32), 11, 19, 31].Pairwise (· < ·) := by decide

/-- GatherReadsGroup: two configurations that differ by an exchange. -/
theorem witness_exchanged_positions : cfgS.pos 0 0 = cfgA.pos 0 1 ∧ cfgS.pos 0 1 = cfgA.pos 0 0 := by decide

/-- GatherScatterIdentity, LanesAreDisjoint. -/
theorem witness_identity_tables : IdentityTables cfgA := by decide

/-- GuFlagsPerGroup, LanesAreDisjoint. -/
theorem witness_all_unresolved : guw cfgU 0 = 0xFF ∧ ∀ j, ucmp (laneEntry cfgU 0 j) = true := by decide

/-- GroupOrderIrrelevant. -/
theorem witness_group_order : groups.reverse.Perm groups := List.reverse_perm _

/-- UnresolvedPositionsZero. -/
theorem witness_unresolved_lane : laneEntry cfgB 0 5 = .unresolved := by decide

/-- BijectiveTablesInvertible, both parts. -/
theorem witness_bijective_tables : ∀ j, TableIs cfgA j (Equiv.refl Nibble) := by decide

/-- WordsIndependent, with equal and with different registers. -/
theorem witness_two_ports :
    (∃ p, outPorts (.descr 0 5) (st cfgB (some 8) 1) = some p) ∧ (∃ p, outPorts (.descr 7 5) (st cfgB (some 9) 2) = some p) :=
  ⟨⟨_, rfl⟩, ⟨_, rfl⟩⟩

/-- DescrDescramblesWord, AddressFormula (at the last index before the wrap), OneRecordPerWord, PortsAbsentOutsideDescr. -/
theorem witness_admitted : (st cfgB (some 0xFFFFFFFFFFFFFFF8) 1).base = some 0xFFFFFFFFFFFFFFF8 ∧
    NoWrap 0xFFFFFFFFFFFFFFF8 2 ∧ (1 : Addr).toNat < 2 := by decide

/-- OneRecordPerWord, RecordIffUnresolved: a word with and a word without an unresolved group. -/
theorem witness_record_or_none :
    guw cfgB 0 ≠ 0 ∧ guw cfgB 0x12345678 = 0 ∧ (∃ j, laneEntry cfgB 0 j = .unresolved) ∧
      ∀ j, laneEntry cfgB 0x12345678 j ≠ .unresolved := by decide

/-- DescrBeforeSetbaseRefused. -/
theorem witness_bv_clear : (st cfgB none 0).bv = false := by decide

/-- ResetClearsBlock. -/
theorem witness_rst_presented : ((st cfgB (some 4) 9).withPort [.rst]).port = .rst :: [] := rfl

/-- RefusalsAreExactlyTwo, StepRunsDecodedCommand: each clause at a word of its own. -/
theorem witness_command_codes :
    (0x30000000000000000 : CommandWord).extractLsb' 64 2 = 0b11#2 ∧
    ((0x20000000000000000 : CommandWord).extractLsb' 64 2 = 0b10#2 ∧ (st cfgB none 0).bv = false) ∧
    ((0x2FFFFFFFFFFFFFFFF : CommandWord).extractLsb' 64 2 ≠ 0b11#2 ∧ (st cfgB (some 0) 0).bv = true) ∧
    (0x1FFFFFFFFFFFFFFFF : CommandWord).extractLsb' 64 2 ≠ 0b10#2 ∧ decodeTableWord 72 0x1FFFFFFFFFFFFFFFF ≠ none := by decide

/-- CommandFrames: each of the three commands has a next state. -/
theorem witness_commands_complete :
    (∃ t, exec (.idle 3) (st cfgB none 0) = .next t) ∧ (∃ t, exec (.setbase 3) (st cfgB none 0) = .next t) ∧
      ∃ t, exec (.descr 3 4) (st cfgB (some 0) 0) = .next t := ⟨⟨_, rfl⟩, ⟨_, rfl⟩, ⟨_, rfl⟩⟩

/-- IgnoredOperandBits: two words of each command that differ in ignored bits, and two equal SETBASE operands. -/
theorem witness_ignored_bits :
    ((0x2FFFFFFFF12345678 : CommandWord).extractLsb' 64 2 = (0x20000000012345678 : CommandWord).extractLsb' 64 2 ∧
      (0x2FFFFFFFF12345678 : CommandWord).extractLsb' 0 32 = (0x20000000012345678 : CommandWord).extractLsb' 0 32) ∧
    (0x00000000000000001 : CommandWord).extractLsb' 64 2 = (0x00000000000000002 : CommandWord).extractLsb' 64 2 ∧
    (0x30000000000000001 : CommandWord).extractLsb' 64 2 = (0x30000000000000002 : CommandWord).extractLsb' 64 2 := by decide

/-- EmptyPortLeavesMoveToHost: no image, and a run that is over. -/
theorem witness_host_waits :
    ((st cfgB none 0).port = [] ∧ (st cfgB none 0).driver.stage = .noImage) ∧
      ((st cfgB none 0).withDriver (Driver.initial.goto .done)).driver.stage = .done := ⟨⟨rfl, rfl⟩, rfl⟩

/-- PortsAbsentOutsideDescr: a command that is no DESCR. -/
theorem witness_not_descr : ∀ hi w, Instr.setbase 5 ≠ .descr hi w := nofun

/-- RegistersWrittenOnlyBy, ConfigurationNeverWritten, LogsRecordEveryDescr, BufferAndDestinationWrites: a step of each
kind with a next state, and a run. -/
theorem witness_steps :
    (∃ t, step (st cfgB none 0) = .next t) ∧ (∃ t, step ((st cfgB (some 4) 9).withPort [.rst]) = .next t) ∧
      (∃ t, step ((st cfgB (some 0) 0).withFetchWord 72 0x20000000000000000) = .next t) ∧
      ∃ t, run 2 ((st cfgB none 0).withFetchWord 72 0x10000000000000007) = .next t :=
  ⟨⟨_, rfl⟩, ⟨_, rfl⟩, ⟨_, rfl⟩, ⟨_, rfl⟩⟩

/-- AllZeroRegion. -/
theorem witness_zero_to_zero : ∀ j, slookup cfgC j 0 = .resolved 0 := by decide

/-- OneUnresolvedGroupWord: the word of 95_test_vectors.md S7. -/
theorem witness_group_three :
    (st cfgB (some 0xA0001B00) 1).base = some 0xA0001B00 ∧ laneEntry cfgB 0x9AB466AA 3 = .unresolved ∧
      ∀ j, j ≠ 3 → laneEntry cfgB 0x9AB466AA j = .resolved 0 := by decide

/-- LineDigitsReadBack: a wide address, and a digit of each field. -/
theorem witness_wide_address :
    8 < (hex8p 0x100000004).length ∧ 'f' ∈ hex8 0xF ∧ '1' ∈ hex8p 0x100000004 := by decide

/-- HostReadsLittleEndian. -/
theorem witness_four_bytes :
    buf.readByte 1 = some 0x78 ∧ buf.readByte (1 + 1) = some 0x56 ∧ buf.readByte (1 + 2) = some 0x34 ∧
      buf.readByte (1 + 3) = some 0x12 := by decide

/-- HostWritesLittleEndian, at the last offset that fits; SpliceChangesOnlyRegion. -/
theorem witness_canonical_buffer :
    buf.wf ∧ 4 + 4 ≤ buf.size ∧ (spliceRegion buf ⟨0, 0, 8⟩ [1, 2]).isSome = true := by decide

/-- LocateComputesRegion, RegionAlignment: a selection, a skipped segment, a marked and an unmarked image, a segment at the edge of its premise. -/
theorem witness_locate :
    firstLoadable [⟨1, 2, 0⟩, ⟨0x1000, 0x400, 1⟩] = some ⟨0x1000, 0x400, 1⟩ ∧
      (∀ x ∈ [(⟨1, 2, 0⟩ : Segment)], x.fileSize = 0) ∧ (⟨0x1000, 0x400, 1⟩ : Segment).fileSize ≠ 0 ∧
      (∃ names : List SymName, some [['m']] = some names ∧ ['m'] ∈ names) ∧
      (¬∃ names : List SymName, none = some names ∧ ['m'] ∈ names) ∧
      Segment.NoWrap ⟨0xFFFFFFFFFFFFC500, 0xFFFFFFFFFFFFC500, 1⟩ :=
  ⟨rfl, by decide, by decide, ⟨_, rfl, by decide⟩, by simp, by decide⟩

/-- MalformedMetadataFaults, NoLoadableSegmentFaults, TruncatedFileFaults, BufferAndDestinationWrites: the three faults. -/
theorem witness_faults :
    step ((st cfgB none 0).withDriver (Driver.initial.goto (.parse .malformed))) = .fault .malformedBinary ∧
      step ((st cfgB none 0).withDriver (Driver.initial.goto (.locate none [⟨1, 2, 0⟩]))) = .fault .noLoadableSegment ∧
      step ((st cfgB none 0).withDriver (Driver.initial.goto (.readWords ⟨0, 0, 4⟩))) = .fault .truncatedFile :=
  ⟨rfl, rfl, rfl⟩

/-- TruncatedFileFaults: a region that just fits. -/
theorem witness_region_fits : (⟨0, 4, 4⟩ : Region).fileOffset.toNat + (⟨0, 4, 4⟩ : Region).length.toNat ≤ buf.size := by decide

/-- WholeHostRun: a file of zeros that holds its region. -/
theorem witness_whole_run :
    ∃ ws, locate firstLoadable cfgC.markerName none [⟨0x1000, 0x400, 0x2C00⟩] = .ok ⟨0x11fc, 0x5fc, 0x2000⟩ ∧
      readRegion { size := 0x3000, cells := [] } ⟨0x11fc, 0x5fc, 0x2000⟩ = some ws := by
  obtain ⟨ws, h, -⟩ := Memory.readWords_isSome (m := { size := 0x3000, cells := [] }) 2048 (off := 0x5fc) (by decide)
  refine ⟨ws, rfl, ?_⟩
  rw [readRegion, if_pos (by decide)]
  exact h

/-- DescrambleSequence, WholeHostRun: that run's addresses do not wrap. -/
theorem witness_no_wrap : NoWrap 0x11fc 2048 := by decide

/-- LinesAssemble. -/
theorem witness_well_formed_lines :
    (Line.setbase (2 ^ 64 - 1)).WellFormed = true ∧ (Line.descr (2 ^ 32 - 1)).WellFormed = true ∧
      (Line.descramble 1 [0, 2 ^ 32 - 1]).WellFormed = true := by decide

/-- A state that has descrambled the word 0 under CFG_B: its record is sound and its logs agree. -/
def loggedState : State :=
  { st cfgB (some 0xA0001B00) 3 with
    outlog := [0x1894468A], diaglog := [⟨0xA0001B08, 0x1894468A, 0x20202020⟩], port := [.command (descrWord 0x09010109)] }

/-- InvariantKeptByStep. -/
theorem witness_invariant : loggedState.Inv ∧ ∃ t, step loggedState = .next t := by
  refine ⟨⟨⟨by decide, nofun, nofun⟩, ?_, by decide, trivial⟩, ⟨_, rfl⟩⟩
  intro r hr
  obtain rfl := List.mem_singleton.1 hr
  exact ⟨by decide, 0x20, by decide, by decide⟩

/-- A state about to splice two words into the buffer. -/
def splicingState : State :=
  { st cfgA (some 0) 2 with
    outlog := [1, 2], diaglog := [⟨0, 0, 0xF⟩], driver := { Driver.initial with stage := .splice ⟨0, 0, 8⟩, buffer := buf } }

/-- BufferAndDestinationWrites: a step from each stage that writes something. -/
theorem witness_writing_stages :
    (∃ t, step (splicingState.withImage buf .malformed) = .next t ∧ t.driver.buffer = buf) ∧
    (∃ t, step splicingState = .next t ∧ t.driver.buffer = { size := 8, cells := [(0, 1), (4, 2)] }) ∧
    (∃ t, step (splicingState.withDriver { splicingState.driver with stage := .write }) = .next t ∧
      t.driver.destination = some buf) ∧
    ∃ t, step (splicingState.withDriver (splicingState.driver.goto .report)) = .next t ∧ t.driver.sink.length = 1 :=
  ⟨⟨_, rfl, rfl⟩, ⟨_, rfl, by decide⟩, ⟨_, rfl, rfl⟩, ⟨_, rfl, rfl⟩⟩

/-- BufferAndDestinationWrites, InvariantKeptByStep, InvariantHoldsAtReset: the invariant in the splice stage, under an
image, and where a fault comes. -/
theorem witness_invariant_host :
    State.Inv { splicingState with diaglog := [] } ∧ buf.wf ∧
    State.Inv ((st cfgB none 0).withDriver (Driver.initial.goto (.readWords ⟨0, 0, 4⟩))) :=
  ⟨⟨⟨by decide, nofun, nofun⟩, nofun, by decide, And.intro rfl rfl⟩, by decide, ⟨by decide, nofun, nofun⟩, nofun, by decide, trivial⟩

/-- ReservedCommandRefused: the reserved word at the port, and a run that is refused at its second step. -/
theorem witness_refused_run :
    (0x30000000000000000 : CommandWord).extractLsb' 64 2 = 0b11#2 ∧
    run 2 ((st cfgB none 0).withPort [.command 0x10000000000000007, .command 0x30000000000000000]) =
      .refused .reservedCommand := ⟨by decide, rfl⟩

/-- CausesRaised: the conditions that the fault witnesses and the refused words do not show by name. -/
theorem witness_causes_host :
    raised ((st cfgB none 0).withDriver (Driver.initial.goto (.locate none []))) = [.noLoadableSegment] ∧
    raised ((st cfgB none 0).withDriver (Driver.initial.goto (.readWords ⟨0, 0, 4⟩))) = [.truncatedFile] ∧
    raised ((st cfgB none 0).withFetchWord 72 0x30000000000000000) = [.reservedCommand] := by decide

/-- CausesRaised: each clause; the word 0x09010109 leaves groups 0, 3 and 5 unresolved (95_test_vectors.md section 3.3). -/
theorem witness_causes :
    raised ((st cfgB none 0).withDriver (Driver.initial.goto (.parse .malformed))) = [.malformedBinary] ∧
    raised ((st cfgB none 0).withFetchWord 72 0x20000000000000000) = [.baseUnset] ∧
    raised ((st cfgB (some 0) 0).withFetchWord 72 0x20000000009010109) =
      [.unresolvedBitGroup, .unresolvedBitGroup, .unresolvedBitGroup] ∧
    raised ((st cfgB (some 0) 0).withFetchWord 72 0x20000000012345678) = [] := by decide

end Sys2Proof.Tests
end

section
/-! The state of the block (10_state.md): what a DESCR puts on the ports and in the logs, what no step and no run changes,
and the values after reset. -/

namespace Sys2Proof.Machine

/-! ### The ports of a command -/

@[simp] theorem descrPorts_plain (c : Config) (b idx : Addr) (w : Word) : (descrPorts c b idx w).plain = plainw c w := rfl
@[simp] theorem descrPorts_diagValid (c : Config) (b idx : Addr) (w : Word) :
    (descrPorts c b idx w).diagValid = anyu c w := rfl
@[simp] theorem descrPorts_record (c : Config) (b idx : Addr) (w : Word) :
    (descrPorts c b idx w).record =
      { address := addrOf b idx, plainPartial := plainw c w, unresolved := unresw c w } := rfl

/-- With BV = 1 the ports of a DESCR carry the tuple of its word and ADDR (R52). -/
theorem outPorts_descr {s : State} {b : Addr} (hb : s.base = some b) (hi w : Word) :
    outPorts (.descr hi w) s = some (descrPorts s.cfg b s.idx w) := by
  simp [outPorts, hb]

/-- With BV = 0 no command has ports, the refused DESCR included (R23, R94). -/
theorem outPorts_eq_none_of_base_eq_none {s : State} (hb : s.base = none) (i : Instr) : outPorts i s = none := by
  cases i with
  | descr hi w => simp [outPorts, hb]
  | idle d => rfl
  | setbase a => rfl
  | rsvd d => rfl

theorem outPorts_eq_none_of_ne_descr {i : Instr} (hi : ∀ h w, i ≠ .descr h w) (s : State) : outPorts i s = none := by
  cases i with
  | descr h w => exact absurd rfl (hi h w)
  | idle d => rfl
  | setbase a => rfl
  | rsvd d => rfl

/-- A step without ports has no event (R23). -/
theorem events_eq_nil_of_outPorts {i : Instr} {s : State} (h : outPorts i s = none) : events i s = [] := by
  simp [events, h]

/-- R94: the one command that reads BASE is refused while BASE holds no value. -/
theorem exec_descr_of_base_eq_none {s : State} (hb : s.base = none) (hi w : Word) :
    exec (.descr hi w) s = .refused .baseUnset := by
  simp [exec, execDescr, hb]

/-! ### What steps and runs keep -/

/-- A property that every step keeps is kept by every run. -/
theorem run_keeps {P : State → Prop} (hstep : ∀ u v, step u = .next v → P u → P v) {n : Nat} {s t : State}
    (h : run n s = .next t) (hs : P s) : P t := by
  induction n generalizing s with
  | zero => cases h; exact hs
  | succ n ih =>
    simp only [run] at h
    split at h
    · next u hu => exact ih h (hstep s u hu hs)
    · cases h
    · cases h

theorem step_keeps_cfg {s t : State} (h : step s = .next t) : t.cfg = s.cfg := by
  obtain ⟨-, hd⟩ | ⟨rest, -, rfl⟩ | ⟨cw, rest, -, he⟩ := step_cases h
  · exact (driverStep_frame hd).1
  · simp
  · exact (exec_frame he).1

theorem run_keeps_cfg {n : Nat} {s t : State} (h : run n s = .next t) : t.cfg = s.cfg :=
  run_keeps (P := fun u => u.cfg = s.cfg) (fun _ _ huv hu => (step_keeps_cfg huv).trans hu) h rfl

/-- Settles O38: reset keeps the configuration by definition, a step by its frames, a run by induction on its steps. -/
theorem configurationNeverWritten : Obligations.ConfigurationNeverWritten :=
  ⟨State.applyReset_cfg, fun _ _ => step_keeps_cfg, fun _ _ _ => run_keeps_cfg⟩

/-! ### The logs -/

/-- DIAGLOG after the DESCR of `w`: one more record exactly when a position of `w` is unresolved (R105). -/
theorem emit_descrPorts_diaglog (s : State) (b : Addr) (w : Word) :
    (s.emit (descrPorts s.cfg b s.idx w)).diaglog =
      if anyu s.cfg w then
        s.diaglog ++ [{ address := addrOf b s.idx, plainPartial := plainw s.cfg w, unresolved := unresw s.cfg w }]
      else s.diaglog := by
  rw [State.emit_diaglog, descrPorts_diagValid, descrPorts_record]
  split
  · rfl
  · exact List.append_nil _

/-- Settles O39, by what the step was: a stage of the host, RESET, IDLE, SETBASE or a DESCR with BV = 1. -/
theorem logsRecordEveryDescr : Obligations.LogsRecordEveryDescr := by
  intro s t h
  obtain ⟨hp, hd⟩ | ⟨rest, hp, rfl⟩ | ⟨cw, rest, hp, he⟩ := step_cases h
  · obtain ⟨-, -, -, hout, hdiag⟩ := driverStep_frame hd
    simp [hp, hout, hdiag]
  · simp [hp]
  · obtain ⟨d, hi, rfl⟩ | ⟨a, hi, rfl⟩ | ⟨hi', w, b, hi, hb, rfl⟩ := exec_cases he
    · simp [hp, hi]
    · simp [hp, hi]
    · rw [State.withPort_base] at hb
      simp only [hp, hi, hb, Option.getD_some]
      exact ⟨by simp, emit_descrPorts_diaglog (s.withPort rest) b w⟩

/-! ### The reset state and the ports -/

/-- Settles O29: in the reset state BASE has no value, so no command has ports and DESCR is refused. -/
theorem resetStateValues : Obligations.ResetStateValues :=
  ⟨rfl, rfl, rfl, rfl, rfl, outPorts_eq_none_of_base_eq_none rfl, exec_descr_of_base_eq_none rfl⟩

/-- Settles O35, by whether the command is a DESCR with BV = 1 or no DESCR at all. -/
theorem portsAbsentOutsideDescr : Obligations.PortsAbsentOutsideDescr := by
  intro i s
  constructor
  · rintro hi w b rfl hb
    exact outPorts_descr hb hi w
  · intro hi
    have hports := outPorts_eq_none_of_ne_descr hi s
    exact ⟨hports, events_eq_nil_of_outPorts hports⟩

end Sys2Proof.Machine
end

section
/-! ADDR and the host's words (20_memory.md): the address of a DESCR as an integer, and a word read as its four bytes. -/

namespace Sys2Proof.Machine

/-! ### ADDR as an integer -/

@[simp] theorem descrPorts_diagAddr (c : Config) (b idx : Addr) (w : Word) :
    (descrPorts c b idx w).diagAddr = addrOf b idx := rfl

/-- R38: both operations of ADDR reduce modulo 2^64, which is one reduction of the sum of integers. -/
theorem addrOf_toNat (b idx : Addr) : (addrOf b idx).toNat = (b.toNat + 4 * idx.toNat) % 2 ^ 64 := by
  simp [addrOf, BitVec.toNat_add, BitVec.toNat_mul]

/-- R38: ADDR is exact at every index below a count whose words do not wrap. -/
theorem addrOf_toNat_of_noWrap {b idx : Addr} {n : Nat} (hn : NoWrap b n) (hi : idx.toNat < n) :
    (addrOf b idx).toNat = b.toNat + 4 * idx.toNat := by
  have hlt : b.toNat + 4 * idx.toNat < 2 ^ 64 := by unfold NoWrap at hn; omega
  rw [addrOf_toNat, Nat.mod_eq_of_lt hlt]

/-- Settles O36: the `diag_addr` of an admitted DESCR is ADDR of the state's own BASE and IDX. -/
theorem addressFormula : Obligations.AddressFormula := by
  intro s hi w b hb
  refine ⟨_, outPorts_descr hb hi w, ?_⟩
  rw [descrPorts_diagAddr]
  exact ⟨addrOf_toNat b s.idx, fun _ hn hidx => addrOf_toNat_of_noWrap hn hidx⟩

/-! ### The bytes of a word -/

theorem Memory.read32_eq_some {m : Memory} {off : Nat} {b0 b1 b2 b3 : Byte} (h0 : m.readByte off = some b0)
    (h1 : m.readByte (off + 1) = some b1) (h2 : m.readByte (off + 2) = some b2) (h3 : m.readByte (off + 3) = some b3) :
    m.read32 off = some ((b3 ++ b2) ++ (b1 ++ b0)) := by
  simp [Memory.read32, h0, h1, h2, h3]

/-- The high part of a concatenation counts in units of the low part's range. -/
theorem toNat_append_eq_mul_add {m n : Nat} (x : BitVec m) (y : BitVec n) :
    (x ++ y).toNat = x.toNat * 2 ^ n + y.toNat := by
  rw [BitVec.toNat_append, ← Nat.shiftLeft_add_eq_or_of_lt y.isLt, Nat.shiftLeft_eq]

/-- R34: the integer value of four bytes laid out from the highest to the lowest. -/
theorem toNat_append_bytes (b0 b1 b2 b3 : Byte) :
    ((b3 ++ b2) ++ (b1 ++ b0)).toNat = b0.toNat + b1.toNat * 2 ^ 8 + b2.toNat * 2 ^ 16 + b3.toNat * 2 ^ 24 := by
  simp only [toNat_append_eq_mul_add]
  omega

/-- Settles O47: the word is the concatenation with `b0` lowest, and its value is the sum of R34. -/
theorem hostReadsLittleEndian : Obligations.HostReadsLittleEndian :=
  fun _ _ b0 b1 b2 b3 h0 h1 h2 h3 => ⟨_, Memory.read32_eq_some h0 h1 h2 h3, toNat_append_bytes b0 b1 b2 b3⟩

end Sys2Proof.Machine
end

section
/-! The encodings (30_encoding.md): sets of positions as masks, what each value of `cmd` makes of a command word and which
bits of its operand count, what the tag of a ROM entry decides. -/

namespace Sys2Proof.Machine

/-! ### Sets of positions and masks -/

@[simp] theorem mem_maskToSet {m : Word} {p : Fin 32} : p ∈ maskToSet m ↔ bit m p.val = true := by
  simp [maskToSet]

theorem maskToSet_sorted (m : Word) : (maskToSet m).Pairwise (· < ·) :=
  (List.sortedLT_finRange 32).pairwise.filter _

theorem maskToSet_nodup (m : Word) : (maskToSet m).Nodup :=
  (maskToSet_sorted m).imp ne_of_lt

@[simp] theorem bit_setToMask_iff (ps : List (Fin 32)) (p : Fin 32) :
    bit (setToMask ps) p.val = true ↔ p ∈ ps := by
  simp [setToMask, bit_orAll, bit_bitAt, ← Fin.ext_iff]

theorem setToMask_maskToSet (m : Word) : setToMask (maskToSet m) = m := by
  refine eq_of_bit fun p hp => ?_
  rw [Bool.eq_iff_iff, bit_setToMask_iff _ ⟨p, hp⟩, mem_maskToSet]

/-- A list in rising order is determined by its members. -/
theorem maskToSet_setToMask {ps : List (Fin 32)} (hps : ps.Pairwise (· < ·)) : maskToSet (setToMask ps) = ps :=
  (maskToSet_sorted _).eq_of_mem_iff hps fun p => by simp

/-- The set of a mask is Mathlib's rising list of the digits 1 of its value. -/
theorem map_val_maskToSet (m : Word) : (maskToSet m).map Fin.val = m.toNat.bitIndices := by
  have hsorted : ((maskToSet m).map Fin.val).SortedLT :=
    ((maskToSet_sorted m).map Fin.val fun _ _ h => h).sortedLT
  refine hsorted.eq_of_mem_iff Nat.bitIndices_sorted fun i => ?_
  rw [Nat.mem_bitIndices]
  constructor
  · intro hi
    obtain ⟨p, hp, rfl⟩ := List.mem_map.1 hi
    exact mem_maskToSet.1 hp
  · intro hi
    have hlt : i < 32 := BitVec.lt_of_getLsbD hi
    exact List.mem_map.2 ⟨⟨i, hlt⟩, mem_maskToSet.2 hi, rfl⟩

theorem toNat_eq_sum_maskToSet (m : Word) : m.toNat = ((maskToSet m).map fun p => 2 ^ p.val).sum := by
  calc m.toNat = (m.toNat.bitIndices.map fun i => 2 ^ i).sum := (Nat.sum_map_two_pow_bitIndices _).symm
    _ = ((maskToSet m).map fun p => 2 ^ p.val).sum := by rw [← map_val_maskToSet, List.map_map]; rfl

/-- R78: UNRESW is the union of the masks of the groups whose bit in GUW is 1. -/
theorem unresw_eq_maskOfGroups (c : Config) (w : Word) : unresw c w = maskOfGroups c (guw c w) := by
  refine word_ext c fun j k => ?_
  rw [bit_unresw, bit_maskOfGroups, bit_guw]

/-- By R11 the positions of the groups set in `g` are distinct, four for each group. -/
theorem length_maskToSet_maskOfGroups (c : Config) (g : BitVec 8) :
    (maskToSet (maskOfGroups c g)).length = (Finset.univ.filter fun j : Fin 8 => bit g j.val = true).card * 4 := by
  have hinj : Function.Injective fun q : Fin 8 × Fin 4 => c.pos q.1 q.2 :=
    fun _ _ h => Prod.ext_iff.2 (c.pos_inj h)
  have himage : (maskToSet (maskOfGroups c g)).toFinset =
      ((Finset.univ.filter fun j : Fin 8 => bit g j.val = true) ×ˢ Finset.univ).image fun q : Fin 8 × Fin 4 => c.pos q.1 q.2 := by
    ext p
    obtain ⟨j, k, rfl⟩ := c.pos_surj p
    simp [bit_maskOfGroups]
  rw [← List.toFinset_card_of_nodup (maskToSet_nodup _), himage, Finset.card_image_of_injective _ hinj, Finset.card_product,
    Finset.card_univ, Fintype.card_fin]

/-- Settles O8: the set lists the digits 1 of the mask in rising order, and UNRESW is a union of groups of four positions. -/
theorem setMaskBijection : Obligations.SetMaskBijection := by
  refine ⟨fun _ _ => mem_maskToSet, setToMask_maskToSet, fun _ => maskToSet_setToMask, toNat_eq_sum_maskToSet, fun c w => ?_⟩
  refine ⟨unresw_eq_maskOfGroups c w, ?_⟩
  rw [unresw_eq_maskOfGroups, length_maskToSet_maskOfGroups, Nat.mul_mod_left]

/-! ### The command word -/

/-- The four codes of R51. -/
theorem cmd_cases (cmd : BitVec 2) : cmd = 0b00#2 ∨ cmd = 0b01#2 ∨ cmd = 0b10#2 ∨ cmd = 0b11#2 := by
  revert cmd; decide

theorem decode_of_cmd_idle {cw : CommandWord} (h : cw.extractLsb' 64 2 = 0b00#2) :
    decode cw = .idle (cw.extractLsb' 0 64) := by
  simp [decode, h]

theorem decode_of_cmd_setbase {cw : CommandWord} (h : cw.extractLsb' 64 2 = 0b01#2) :
    decode cw = .setbase (cw.extractLsb' 0 64) := by
  simp [decode, h]

theorem decode_of_cmd_descr {cw : CommandWord} (h : cw.extractLsb' 64 2 = 0b10#2) :
    decode cw = .descr ((cw.extractLsb' 0 64).extractLsb' 32 32) ((cw.extractLsb' 0 64).extractLsb' 0 32) := by
  simp [decode, h]

theorem decode_of_cmd_rsvd {cw : CommandWord} (h : cw.extractLsb' 64 2 = 0b11#2) :
    decode cw = .rsvd (cw.extractLsb' 0 64) := by
  simp [decode, h]

@[simp] theorem extract_cmd_append (cmd : BitVec 2) (din : BitVec 64) :
    (cmd ++ din : CommandWord).extractLsb' 64 2 = cmd :=
  BitVec.extractLsb'_append_eq_left

@[simp] theorem extract_din_append (cmd : BitVec 2) (din : BitVec 64) :
    (cmd ++ din : CommandWord).extractLsb' 0 64 = din :=
  BitVec.extractLsb'_append_eq_right

/-- The word of a DESCR is `din[31:0]`, which is `CW[31:0]` (R51). -/
theorem extract_low_din (cw : CommandWord) : (cw.extractLsb' 0 64).extractLsb' 0 32 = cw.extractLsb' 0 32 := by
  rw [BitVec.extractLsb'_extractLsb'_of_le (by decide)]

/-- Settles O4: `cmd` and `din` are the two parts of the word, and each code has its equation of `decode`. -/
theorem cmdSelectsCommand : Obligations.CmdSelectsCommand := by
  intro din
  refine ⟨?_, ?_, ?_, ?_⟩
  · rw [decode_of_cmd_idle (extract_cmd_append _ din), extract_din_append]
  · rw [decode_of_cmd_setbase (extract_cmd_append _ din), extract_din_append]
  · rw [decode_of_cmd_descr (extract_cmd_append _ din), extract_din_append]
  · rw [decode_of_cmd_rsvd (extract_cmd_append _ din), extract_din_append]

/-! ### The operand bits that count -/

/-- Settles O32, by the common `cmd` of the two words: IDLE, DESCR and RSVD have a meaning and ports that do not read the
operand bits they ignore, and the operands that count are equal. -/
theorem ignoredOperandBits : Obligations.IgnoredOperandBits := by
  intro s rest cw cw' hcmd hset hdescr
  rw [step_withPort_command, step_withPort_command]
  obtain h | h | h | h := cmd_cases (cw.extractLsb' 64 2)
  · rw [decode_of_cmd_idle h, decode_of_cmd_idle (hcmd ▸ h)]
    exact ⟨rfl, rfl⟩
  · rw [decode_of_cmd_setbase h, decode_of_cmd_setbase (hcmd ▸ h), hset h]
    exact ⟨rfl, rfl⟩
  · rw [decode_of_cmd_descr h, decode_of_cmd_descr (hcmd ▸ h), extract_low_din, extract_low_din, hdescr h]
    exact ⟨rfl, rfl⟩
  · rw [decode_of_cmd_rsvd h, decode_of_cmd_rsvd (hcmd ▸ h)]
    exact ⟨rfl, rfl⟩

/-! ### The patterns of a ROM entry -/

/-- R54, R60: an entry's pattern is read by its tag `u` first. -/
theorem ofPattern_append (u : BitVec 1) (s : Nibble) :
    Entry.ofPattern (u ++ s) = if u = 1#1 then .unresolved else .resolved s := by
  have htag : bit (u ++ s) 4 = bit u 0 := by
    rw [bit, BitVec.getLsbD_append, if_neg (lt_irrefl 4), bit]
  rw [Entry.ofPattern, htag, BitVec.extractLsb'_append_eq_right]
  obtain rfl | rfl := BitVec.eq_zero_or_eq_one u
  · rfl
  · rfl

/-- R73: the comparator of a pattern is its tag. -/
theorem ucmp_ofPattern (e : BitVec 5) : ucmp (Entry.ofPattern e) = bit e 4 := by
  unfold Entry.ofPattern
  split
  · next h => exact h.symm
  · next h => exact (Bool.eq_false_iff.2 h).symm

/-- Settles O5: reading a pattern is a choice by its tag alone. -/
theorem romPatternsDecode : Obligations.RomPatternsDecode :=
  ⟨ofPattern_append 0#1, ofPattern_append 1#1, fun _ => rfl, rfl, ucmp_ofPattern⟩

end Sys2Proof.Machine
end

section
/-! The datapath (40_datapath.md): the local value of a group and its place in the word, what the lanes give under
identity tables and when unresolved, and that neither their order nor the operation that joins them matters. -/

namespace Sys2Proof.Machine

/-! ### Gather and scatter -/

@[simp] theorem bit_ones_word (p : Fin 32) : bit (0xFFFFFFFF#32) p.val = true := bit_allOnes p

@[simp] theorem bit_ones_nibble (k : Fin 4) : bit (15#4) k.val = true := by
  revert k; decide

/-- GATHER reads no bit outside its group (R70). -/
theorem gather_and_gmask (c : Config) (w : Word) (j : Fin 8) : gather c (w &&& gmask c j) j = gather c w j :=
  nibble_ext fun k => by simp [bit_gmask]

theorem gather_zero (c : Config) (j : Fin 8) : gather c 0 j = 0 :=
  nibble_ext fun k => by simp

theorem gather_ones (c : Config) (j : Fin 8) : gather c 0xFFFFFFFF j = 15 :=
  nibble_ext fun k => by simp

/-- Settles O11: everything GATHER does follows from its bit equation. -/
theorem gatherReadsGroup : Obligations.GatherReadsGroup := by
  intro c j
  refine ⟨fun w k => bit_gather c w j k, gather_zero c j, gather_ones c j, fun w => (gather_and_gmask c w j).symm, ?_⟩
  intro c' h0 h1 w
  constructor
  · calc bit (gather c' w j) 0 = bit w (c'.pos j 0).val := bit_gather c' w j 0
      _ = bit w (c.pos j 1).val := by rw [h0]
      _ = bit (gather c w j) 1 := (bit_gather c w j 1).symm
  · calc bit (gather c' w j) 1 = bit w (c'.pos j 1).val := bit_gather c' w j 1
      _ = bit w (c.pos j 0).val := by rw [h1]
      _ = bit (gather c w j) 0 := (bit_gather c w j 0).symm

/-- R75: SCATTER drives no position outside its group. -/
theorem scatter_and_not_gmask (c : Config) (j : Fin 8) (s : Nibble) : scatter c j s &&& ~~~gmask c j = 0 :=
  word_ext c fun i k => by
    rw [bit_and, bit_not, bit_scatter, bit_gmask]
    by_cases h : j = i <;> simp [h]

theorem scatter_zero (c : Config) (j : Fin 8) : scatter c j 0 = 0 :=
  word_ext c fun i k => by simp [bit_scatter]

theorem scatter_fifteen (c : Config) (j : Fin 8) : scatter c j 15 = gmask c j :=
  word_ext c fun i k => by simp [bit_scatter, bit_gmask]

/-- R82: what SCATTER places, GATHER of the same group reads back. -/
theorem gather_scatter (c : Config) (j : Fin 8) (s : Nibble) : gather c (scatter c j s) j = s :=
  nibble_ext fun k => by simp [bit_scatter]

/-- R82: GATHER and then SCATTER keep the bits of the group and clear the others. -/
theorem scatter_gather (c : Config) (j : Fin 8) (w : Word) : scatter c j (gather c w j) = w &&& gmask c j := by
  refine word_ext c fun i k => ?_
  rw [bit_scatter, bit_gather, bit_and, bit_gmask]
  by_cases h : j = i
  · simp [h]
  · simp [h]

/-- Settles O13: SCATTER bit by bit at every `GROUP[i][k]`, group `j` and the others. -/
theorem scatterPlacesNibble : Obligations.ScatterPlacesNibble := by
  intro c j
  refine ⟨fun s k => ?_, scatter_and_not_gmask c j, scatter_zero c j, scatter_fifteen c j, gather_scatter c j,
    scatter_gather c j⟩
  simp [bit_scatter]

/-! ### The lanes of one word -/

theorem lanePlain_of_resolved {c : Config} {w : Word} {j : Fin 8} {s : Nibble} (h : laneEntry c w j = .resolved s) :
    lanePlain c w j = scatter c j s := by
  rw [lanePlain, h]

theorem ucmp_eq_true {e : Entry} : ucmp e = true ↔ e = .unresolved := by
  cases e <;> simp [ucmp]

theorem ucmp_eq_false {e : Entry} : ucmp e = false ↔ ∃ s, e = .resolved s := by
  cases e <;> simp [ucmp]

/-- Under identity tables a lane passes the bits of its group (R82). -/
theorem lanePlain_of_identityTables {c : Config} (hc : IdentityTables c) (w : Word) (j : Fin 8) :
    lanePlain c w j = w &&& gmask c j := by
  rw [lanePlain_of_resolved (hc j (gather c w j)), scatter_gather]

theorem plainw_of_identityTables {c : Config} (hc : IdentityTables c) (w : Word) : plainw c w = w := by
  refine word_ext c fun j k => ?_
  rw [bit_plainw, laneEntry, hc]
  exact bit_gather c w j k

/-- Settles O14: both identities of a group, and under identity tables each lane is the word under its mask. -/
theorem gatherScatterIdentity : Obligations.GatherScatterIdentity := by
  refine ⟨fun c w j => scatter_gather c j w, fun c s j => gather_scatter c j s, fun c hc w => ?_⟩
  refine ⟨?_, plainw_of_identityTables hc w⟩
  rw [plainw, funext (lanePlain_of_identityTables hc w)]

/-! ### Unresolved groups -/

/-- The positions of an unresolved group are 0 in the plaintext, whatever the other groups give (R81). -/
theorem bit_plainw_of_unresolved {c : Config} {w : Word} {j : Fin 8} (h : laneEntry c w j = .unresolved) (k : Fin 4) :
    bit (plainw c w) (c.pos j k).val = false := by
  rw [bit_plainw, h]

theorem plainw_of_all_unresolved {c : Config} {w : Word} (h : ∀ j, ucmp (laneEntry c w j) = true) : plainw c w = 0 :=
  word_ext c fun j k => by rw [bit_plainw_of_unresolved (ucmp_eq_true.1 (h j))]; simp

theorem unresw_of_all_unresolved {c : Config} {w : Word} (h : ∀ j, ucmp (laneEntry c w j) = true) :
    unresw c w = 0xFFFFFFFF :=
  word_ext c fun j k => by rw [bit_unresw, h]; simp

/-- Settles O15: all eight bits of GUW are 1 exactly when every group is unresolved. -/
theorem guFlagsPerGroup : Obligations.GuFlagsPerGroup := by
  intro c w
  refine ⟨bit_guw c w, fun hall => ?_⟩
  have hunres : ∀ j, ucmp (laneEntry c w j) = true := fun j => by
    rw [← bit_guw, hall]; revert j; decide
  exact ⟨plainw_of_all_unresolved hunres, unresw_of_all_unresolved hunres⟩

theorem anyu_iff_unresw_ne_zero (c : Config) (w : Word) : anyu c w = true ↔ unresw c w ≠ 0 := bne_iff_ne

theorem guw_ne_zero_iff (c : Config) (w : Word) : guw c w ≠ 0 ↔ ∃ j, ucmp (laneEntry c w j) = true := by
  constructor
  · contrapose!
    intro hnone
    refine eq_of_bit fun p hp => ?_
    rw [bit_guw c w ⟨p, hp⟩]
    simpa using hnone ⟨p, hp⟩
  · rintro ⟨j, hj⟩ hzero
    simp [← bit_guw, hzero] at hj

/-- R78: UNRESW is 0 exactly when no lane is unresolved. -/
theorem unresw_eq_zero_iff (c : Config) (w : Word) : unresw c w = 0 ↔ ∀ j, ∃ s, laneEntry c w j = .resolved s := by
  calc unresw c w = 0 ↔ ¬ anyu c w = true := by rw [anyu_iff_unresw_ne_zero, not_not]
    _ ↔ ∀ j, ucmp (laneEntry c w j) = false := by simp [anyu_eq_true]
    _ ↔ ∀ j, ∃ s, laneEntry c w j = .resolved s := forall_congr' fun _ => ucmp_eq_false

/-- Settles O17: ANYU, UNRESW and GUW all say whether some group is unresolved. -/
theorem unresolvedMaskAndSummary : Obligations.UnresolvedMaskAndSummary := fun c w =>
  ⟨rfl, unresw_eq_maskOfGroups c w, anyu_iff_unresw_ne_zero c w, (anyu_eq_true c w).trans (guw_ne_zero_iff c w).symm,
    unresw_eq_zero_iff c w⟩

/-- R81: no position is both reported unresolved and 1 in the plaintext. -/
theorem plainw_and_unresw (c : Config) (w : Word) : plainw c w &&& unresw c w = 0 := by
  refine word_ext c fun j k => ?_
  rw [bit_and, bit_unresw]
  cases h : laneEntry c w j with
  | resolved s => simp [ucmp]
  | unresolved => simp [bit_plainw_of_unresolved h]

/-- Settles O20, position by position of the groups. -/
theorem unresolvedPositionsZero : Obligations.UnresolvedPositionsZero := fun c w =>
  ⟨plainw_and_unresw c w, fun j h k => ⟨by rw [bit_unresw, h]; rfl, bit_plainw_of_unresolved h k⟩⟩

/-! ### Joining the lanes -/

/-- By R11 two lanes drive no common position (R77). -/
theorem lanePlain_and_lanePlain (c : Config) (w : Word) {i j : Fin 8} (h : i ≠ j) :
    lanePlain c w i &&& lanePlain c w j = 0 := by
  refine word_ext c fun m k => ?_
  rw [bit_and, bit_lanePlain, bit_lanePlain]
  by_cases hi : i = m
  · have hj : j ≠ m := fun hj => h (hi.trans hj.symm)
    simp [hj]
  · simp [hi]

theorem lanes_pairwise_disjoint (c : Config) (w : Word) :
    (groups.map (lanePlain c w)).Pairwise fun x y => x &&& y = 0 := by
  have hgroups : groups.Pairwise (· ≠ ·) := by decide
  exact hgroups.map _ fun _ _ h => lanePlain_and_lanePlain c w h

theorem and_orAll_eq_zero {n : Nat} {x : BitVec n} {l : List (BitVec n)} (h : ∀ y ∈ l, x &&& y = 0) :
    x &&& orAll l = 0 := by
  induction l with
  | nil => exact BitVec.and_zero
  | cons y ys ih =>
    obtain ⟨hy, hys⟩ := List.forall_mem_cons.1 h
    rw [orAll, BitVec.and_or_distrib_left, hy, ih hys]
    exact BitVec.or_zero

/-- Values that share no position have no carry in their sum. -/
theorem toNat_orAll_of_disjoint {n : Nat} {l : List (BitVec n)} (h : l.Pairwise fun x y => x &&& y = 0) :
    (orAll l).toNat = (l.map BitVec.toNat).sum := by
  induction l with
  | nil => rfl
  | cons x xs ih =>
    obtain ⟨hx, hxs⟩ := List.pairwise_cons.1 h
    have hrest : x &&& orAll xs = 0 := and_orAll_eq_zero hx
    calc (x ||| orAll xs).toNat = (x + orAll xs).toNat := by rw [BitVec.add_eq_or_of_and_eq_zero _ _ hrest]
      _ = x.toNat + (orAll xs).toNat := BitVec.toNat_add_of_and_eq_zero hrest
      _ = x.toNat + (xs.map BitVec.toNat).sum := by rw [ih hxs]

theorem or_eq_xor_of_disjoint {n : Nat} {x y : BitVec n} (h : x &&& y = 0) : x ||| y = x ^^^ y := by
  refine BitVec.eq_of_getLsbD_eq fun p _ => ?_
  have hbit : (x.getLsbD p && y.getLsbD p) = false := by rw [← BitVec.getLsbD_and, h]; exact BitVec.getLsbD_zero
  rw [BitVec.getLsbD_or, BitVec.getLsbD_xor]
  cases hx : x.getLsbD p with
  | false => simp
  | true => simpa [hx] using hbit

/-- Values that share no position are joined alike by OR and by exclusive or. -/
theorem orAll_eq_foldr_xor_of_disjoint {n : Nat} {l : List (BitVec n)} (h : l.Pairwise fun x y => x &&& y = 0) :
    orAll l = l.foldr (· ^^^ ·) 0 := by
  induction l with
  | nil => rfl
  | cons x xs ih =>
    obtain ⟨hx, hxs⟩ := List.pairwise_cons.1 h
    calc x ||| orAll xs = x ^^^ orAll xs := or_eq_xor_of_disjoint (and_orAll_eq_zero hx)
      _ = x ^^^ xs.foldr (· ^^^ ·) 0 := by rw [ih hxs]

/-- Settles O16: the lanes are pairwise disjoint, which makes their OR, sum and exclusive or one value. -/
theorem lanesAreDisjoint : Obligations.LanesAreDisjoint := by
  intro c w
  have hdisjoint := lanes_pairwise_disjoint c w
  refine ⟨rfl, fun _ _ => lanePlain_and_lanePlain c w, ?_, orAll_eq_foldr_xor_of_disjoint hdisjoint,
    fun hc => plainw_of_identityTables hc w, plainw_of_all_unresolved⟩
  rw [plainw, toNat_orAll_of_disjoint hdisjoint, List.map_map]
  rfl

/-- The OR of a list does not depend on its order. -/
theorem orAll_perm {n : Nat} {l l' : List (BitVec n)} (h : l.Perm l') : orAll l = orAll l' :=
  eq_of_bit fun p _ => by rw [bit_orAll, bit_orAll, h.any_eq]

/-- Settles O19: PLAINW, UNRESW and GUW are each an OR over the groups. -/
theorem groupOrderIrrelevant : Obligations.GroupOrderIrrelevant := fun _ _ _ hl =>
  ⟨orAll_perm (hl.map _), orAll_perm (hl.map _), orAll_perm (hl.map _)⟩

end Sys2Proof.Machine
end

section
/-! The commands (41_commands.md): each command and the rst pin as an exact next state or a refusal, and what IDLE and RSVD
mean for a whole run. -/

namespace Sys2Proof.Machine

/-! ### IDLE -/

theorem decode_encode_idle (din : BitVec 64) : decode (encode (.idle din)) = .idle din :=
  (cmdSelectsCommand din).1

theorem exec_idle (din : BitVec 64) (s : State) : exec (.idle din) s = .next s := rfl

theorem step_withPort_idle (s : State) (din : BitVec 64) (l : List PortInput) :
    step (s.withPort (.command (encode (.idle din)) :: l)) = .next (s.withPort l) := by
  rw [step_withPort_command, decode_encode_idle, exec_idle]

/-- What the block does with the oldest input at the port does not depend on the inputs behind it (R96). -/
theorem step_withPort_cons (x : PortInput) (s : State) :
    (∃ t : State, ∀ l, step (s.withPort (x :: l)) = .next (t.withPort l)) ∨
      ∃ r, ∀ l, step (s.withPort (x :: l)) = .refused r := by
  cases x with
  | rst => exact .inl ⟨s.applyReset, step_withPort_rst s⟩
  | command cw =>
    cases h : exec (decode cw) s with
    | next t => exact .inl ⟨t, fun l => (step_withPort_command s cw l).trans (exec_withPort l h)⟩
    | fault f => exact absurd h (exec_ne_fault _ _ f)
    | refused r => exact .inr ⟨r, fun l => (step_withPort_command s cw l).trans (exec_withPort_refused l h)⟩

/-- An IDLE costs one step and has no other effect on a run long enough to reach it (R90). -/
theorem run_withPort_idle (din : BitVec 64) (post : List PortInput) {pre : List PortInput} {n : Nat} (s : State)
    (hn : pre.length ≤ n) :
    run (n + 1) (s.withPort (pre ++ .command (encode (.idle din)) :: post)) = run n (s.withPort (pre ++ post)) := by
  induction pre generalizing n s with
  | nil => exact run_succ_next (step_withPort_idle s din post)
  | cons x pre ih =>
    obtain ⟨m, rfl⟩ : ∃ m, n = m + 1 := Nat.exists_eq_add_one_of_ne_zero (Nat.ne_zero_of_lt hn)
    obtain ⟨t, ht⟩ | ⟨r, hr⟩ := step_withPort_cons x s
    · rw [List.cons_append, List.cons_append, run_succ_next (ht _), run_succ_next (ht _)]
      exact ih t (Nat.le_of_succ_le_succ hn)
    · rw [List.cons_append, List.cons_append, run_succ_refused (hr _), run_succ_refused (hr _)]

/-- Settles O23: the inputs before the IDLE do the same with it behind them as without it, and its own step changes
nothing. -/
theorem idleChangesNothing : Obligations.IdleChangesNothing := by
  refine ⟨fun din s => ⟨exec_idle din s, rfl, events_eq_nil_of_outPorts rfl⟩, fun din s pre post => ?_⟩
  rw [Nat.add_right_comm]
  exact run_withPort_idle din post s (Nat.le_add_right _ _)

/-! ### RSVD -/

theorem exec_rsvd (din : BitVec 64) (s : State) : exec (.rsvd din) s = .refused .reservedCommand := rfl

theorem step_of_cmd_rsvd {s : State} {cw : CommandWord} {rest : List PortInput} (hport : s.port = .command cw :: rest)
    (hcmd : cw.extractLsb' 64 2 = 0b11#2) : step s = .refused .reservedCommand := by
  rw [step_command hport, decode_of_cmd_rsvd hcmd, exec_rsvd]

/-- Settles O26: the step that meets the reserved code is refused, and a refused run stays refused. -/
theorem reservedCommandRefused : Obligations.ReservedCommandRefused :=
  ⟨fun din s => ⟨exec_rsvd din s, events_eq_nil_of_outPorts rfl⟩,
    fun _ _ _ hport hcmd _ => run_succ_refused (step_of_cmd_rsvd hport hcmd),
    fun _ n _ _ h => run_refused_add n h⟩

/-! ### SETBASE -/

theorem exec_setbase (a : Addr) (s : State) : exec (.setbase a) s = .next (s.startSequence a) := rfl

theorem State.startSequence_startSequence (s : State) (a b : Addr) :
    (s.startSequence a).startSequence b = s.startSequence b := rfl

/-- Settles O24: the next state is `startSequence`, in which the second of two SETBASE decides. -/
theorem setbaseStartsSequence : Obligations.SetbaseStartsSequence := by
  intro a s
  refine ⟨s.startSequence a, rfl, rfl, exec_setbase a s, ?_, rfl, events_eq_nil_of_outPorts rfl⟩
  rw [exec_setbase, State.startSequence_startSequence]

/-! ### DESCR -/

theorem exec_descr {s : State} {b : Addr} (hb : s.base = some b) (hi w : Word) :
    exec (.descr hi w) s = .next (s.emit (descrPorts s.cfg b s.idx w)).advance := by
  simp [exec, execDescr, hb]

/-- A step with ports has the word as its event and then, when `diag_valid` is 1, the record (R62). -/
theorem events_of_outPorts {i : Instr} {s : State} {p : OutPorts} (h : outPorts i s = some p) :
    events i s = .out p.plain :: if p.diagValid then [.diag p.record] else [] := by
  simp only [events, h]
  split <;> rfl

/-- DESCR as an exact update of the state: what `emit` leaves in each log, and the index advanced. -/
theorem emit_descrPorts_advance (s : State) (b : Addr) (w : Word) :
    (s.emit (descrPorts s.cfg b s.idx w)).advance =
      { s with
        idx := s.idx + 1
        outlog := s.outlog ++ [plainw s.cfg w]
        diaglog :=
          if anyu s.cfg w then
            s.diaglog ++ [{ address := addrOf b s.idx, plainPartial := plainw s.cfg w, unresolved := unresw s.cfg w }]
          else s.diaglog } := by
  rw [← emit_descrPorts_diaglog s b w]
  unfold State.emit
  split <;> rfl

/-- Settles O25: next state, ports and events of DESCR are each an equation in its ports, whose address is ADDR. -/
theorem descrDescramblesWord : Obligations.DescrDescramblesWord := by
  intro hi w s b hb
  have hports := outPorts_descr hb hi w
  refine ⟨?_, hports, events_of_outPorts hports⟩
  rw [exec_descr hb, emit_descrPorts_advance]
  rfl

/-- Settles O27: with BV = 0 BASE holds no value to read, so nothing is put on the ports. -/
theorem descrBeforeSetbaseRefused : Obligations.DescrBeforeSetbaseRefused := by
  intro hi w s hbv
  have hb : s.base = none := s.bv_eq_false.1 hbv
  have hports := outPorts_eq_none_of_base_eq_none hb (.descr hi w)
  exact ⟨exec_descr_of_base_eq_none hb hi w, hports, events_eq_nil_of_outPorts hports⟩

/-! ### The rst pin -/

/-- Settles O28: RESET is applied to the state whose port has moved on. -/
theorem resetClearsBlock : Obligations.ResetClearsBlock := fun _ _ hport => step_rst hport

end Sys2Proof.Machine
end

section
/-! Diagnostics (42_diagnostics.md): when a DESCR records a word, and what the mask of its record says of each group. -/

namespace Sys2Proof.Machine

/-! ### When a record is produced -/

/-- R105: an admitted DESCR completes, with at most one record more in DIAGLOG. -/
theorem exec_descr_diaglog {s : State} {b : Addr} (hb : s.base = some b) (hi w : Word) :
    ∃ t, exec (.descr hi w) s = .next t ∧
      t.diaglog =
        if anyu s.cfg w then
          s.diaglog ++ [{ address := addrOf b s.idx, plainPartial := plainw s.cfg w, unresolved := unresw s.cfg w }]
        else s.diaglog :=
  ⟨_, exec_descr hb hi w, emit_descrPorts_diaglog s b w⟩

theorem anyu_iff_exists_unresolved (c : Config) (w : Word) : anyu c w = true ↔ ∃ j, laneEntry c w j = .unresolved :=
  (anyu_eq_true c w).trans (exists_congr fun _ => ucmp_eq_true)

theorem anyu_iff_guw_ne_zero (c : Config) (w : Word) : anyu c w = true ↔ guw c w ≠ 0 :=
  (anyu_eq_true c w).trans (guw_ne_zero_iff c w).symm

/-- Settles O41: ANYU, by which a DESCR records its word, says whether one of the eight entries is Unresolved. -/
theorem recordIffUnresolved : Obligations.RecordIffUnresolved := by
  intro hi w s b hb
  obtain ⟨t, ht, hlog⟩ := exec_descr_diaglog hb hi w
  refine ⟨t, ht, fun hsome => ?_, fun hnone => ?_⟩
  · rw [hlog, if_pos ((anyu_iff_exists_unresolved s.cfg w).2 hsome)]
  · rw [hlog, if_neg (mt (anyu_iff_exists_unresolved s.cfg w).1 (not_exists.2 hnone))]

/-! ### The groups read off the mask -/

/-- Every group has a position. -/
theorem gmask_ne_zero (c : Config) (j : Fin 8) : gmask c j ≠ 0 := by
  intro hzero
  have hbit := bit_gmask c j j 0
  simp [hzero] at hbit

/-- R107: what UNRESW holds of a group is all of its positions or none, by the group's bit in GUW. -/
theorem unresw_and_gmask (c : Config) (w : Word) (j : Fin 8) :
    unresw c w &&& gmask c j = if bit (guw c w) j.val then gmask c j else 0 := by
  refine word_ext c fun i k => ?_
  rw [bit_and, bit_unresw, ← bit_guw, bit_gmask]
  by_cases h : j = i
  · subst h
    cases bit (guw c w) j.val <;> simp [bit_gmask]
  · cases bit (guw c w) j.val <;> simp [h, bit_gmask]

/-- Settles O42: a word is recorded once when GUW is not 0, and the mask of its record holds each group whole or not at
all. -/
theorem oneRecordPerWord : Obligations.OneRecordPerWord := by
  refine ⟨fun hi w s b hb => ?_, fun c w j => ?_⟩
  · obtain ⟨t, ht, hlog⟩ := exec_descr_diaglog hb hi w
    refine ⟨t, ht, fun hsome => ?_, fun hzero => ?_⟩
    · rw [if_pos ((anyu_iff_guw_ne_zero s.cfg w).2 hsome)] at hlog
      exact ⟨_, hlog, unresw_eq_maskOfGroups s.cfg w⟩
    · rw [hlog, if_neg (mt (anyu_iff_guw_ne_zero s.cfg w).1 (not_not.2 hzero))]
  · rw [unresw_and_gmask]
    cases bit (guw c w) j.val with
    | true => simpa using gmask_ne_zero c j
    | false => simp

end Sys2Proof.Machine
end

section
/-! The host (43_host_driver.md): the Region LOCATE answers for the selected segment, and its bounds under the premise of
R119. -/

namespace Sys2Proof.Machine

/-! ### The delta -/

theorem isMarked_iff (marker : SymName) (symbols : Option (List SymName)) :
    isMarked marker symbols = true ↔ ∃ names, symbols = some names ∧ marker ∈ names := by
  cases symbols <;> simp [isMarked]

@[simp] theorem regionStartDelta_true : regionStartDelta true = 0x1b00 := rfl
@[simp] theorem regionStartDelta_false : regionStartDelta false = 0x1fc := rfl

theorem regionStartDelta_toNat (marked : Bool) :
    (regionStartDelta marked).toNat = if marked then 0x1b00 else 0x1fc := by
  cases marked <;> rfl

/-- The bound of R119 is the larger delta and the length of a Region. -/
theorem regionStartDelta_toNat_add_le (marked : Bool) : (regionStartDelta marked).toNat + 0x2000 ≤ 0x3b00 := by
  cases marked <;> decide

/-- The delta LOCATE adds, from what the symbol table holds (R116, R118). -/
theorem regionStartDelta_isMarked {marker : SymName} {symbols : Option (List SymName)} {delta : Addr}
    (h : ((∃ names, symbols = some names ∧ marker ∈ names) ∧ delta = 0x1b00) ∨
      ((¬∃ names, symbols = some names ∧ marker ∈ names) ∧ delta = 0x1fc)) :
    regionStartDelta (isMarked marker symbols) = delta := by
  rw [← isMarked_iff] at h
  obtain ⟨hmarked, rfl⟩ | ⟨hunmarked, rfl⟩ := h
  · rw [hmarked, regionStartDelta_true]
  · rw [Bool.eq_false_of_not_eq_true hunmarked, regionStartDelta_false]

/-! ### The Region of the selected segment -/

theorem locate_of_select {select : List Segment → Option Segment} {segs : List Segment} {g : Segment}
    (h : select segs = some g) (marker : SymName) (symbols : Option (List SymName)) :
    locate select marker symbols segs = .ok (regionOf g (regionStartDelta (isMarked marker symbols))) := by
  rw [locate, h]

/-- A field of a segment plus the delta is exact under the premise of R119. -/
theorem toNat_add_regionStartDelta {a : Addr} (h : a.toNat + 0x3b00 ≤ 2 ^ 64) (marked : Bool) :
    (a + regionStartDelta marked).toNat = a.toNat + (regionStartDelta marked).toNat :=
  BitVec.toNat_add_of_lt (by have := regionStartDelta_toNat_add_le marked; omega)

/-- Under that premise the 0x2000 bytes from the sum on do not wrap either. -/
theorem toNat_add_regionStartDelta_add_le {a : Addr} (h : a.toNat + 0x3b00 ≤ 2 ^ 64) (marked : Bool) :
    (a + regionStartDelta marked).toNat + 0x2000 ≤ 2 ^ 64 := by
  have hdelta := regionStartDelta_toNat_add_le marked
  rw [toNat_add_regionStartDelta h]
  omega

/-- Settles O49: `locate` answers `regionOf` the selected segment, each of whose two sums is exact with room for the
Region's 2048 words of four bytes. -/
theorem locateComputesRegion : Obligations.LocateComputesRegion := by
  refine ⟨fun select marker symbols segs g delta hselect hdelta => ?_, fun g marked ⟨hpaddr, hoffset⟩ => ?_⟩
  · rw [locate_of_select hselect, regionStartDelta_isMarked hdelta]
    rfl
  · rw [← regionStartDelta_toNat]
    exact ⟨toNat_add_regionStartDelta hpaddr marked, toNat_add_regionStartDelta hoffset marked,
      toNat_add_regionStartDelta_add_le hpaddr marked, toNat_add_regionStartDelta_add_le hoffset marked⟩

end Sys2Proof.Machine
end

section
/-! Exceptions (60_exceptions.md): which command words are refused, and the host's faults before it has a Region. -/

namespace Sys2Proof.Machine

/-! ### The refusals of a command -/

/-- R94 at the port: a DESCR before any SETBASE. -/
theorem step_of_cmd_descr_of_bv_eq_false {s : State} {cw : CommandWord} {rest : List PortInput}
    (hport : s.port = .command cw :: rest) (hcmd : cw.extractLsb' 64 2 = 0b10#2) (hbv : s.bv = false) :
    step s = .refused .baseUnset := by
  have hb : (s.withPort rest).base = none := s.bv_eq_false.1 hbv
  rw [step_command hport, decode_of_cmd_descr hcmd, exec_descr_of_base_eq_none hb]

/-- R136: a command that is not RSVD, and no DESCR while BV = 0, has a next state. -/
theorem exists_step_eq_next_of_cmd {s : State} {cw : CommandWord} {rest : List PortInput}
    (hport : s.port = .command cw :: rest) (hrsvd : cw.extractLsb' 64 2 ≠ 0b11#2)
    (hdescr : cw.extractLsb' 64 2 = 0b10#2 → s.bv = true) : ∃ t, step s = .next t := by
  rw [step_command hport]
  obtain h | h | h | h := cmd_cases (cw.extractLsb' 64 2)
  · rw [decode_of_cmd_idle h]
    exact ⟨_, exec_idle _ _⟩
  · rw [decode_of_cmd_setbase h]
    exact ⟨_, exec_setbase _ _⟩
  · obtain ⟨b, hb⟩ := s.bv_eq_true.1 (hdescr h)
    have hb' : (s.withPort rest).base = some b := hb
    rw [decode_of_cmd_descr h]
    exact ⟨_, exec_descr hb' _ _⟩
  · exact absurd h hrsvd

/-- R136: the two refusals of a command word, by its `cmd` and BV. -/
theorem step_eq_refused_iff {s : State} {cw : CommandWord} {rest : List PortInput}
    (hport : s.port = .command cw :: rest) (r : Refusal) :
    step s = .refused r ↔
      (cw.extractLsb' 64 2 = 0b11#2 ∧ r = .reservedCommand) ∨
      (cw.extractLsb' 64 2 = 0b10#2 ∧ s.bv = false ∧ r = .baseUnset) := by
  constructor
  · intro hstep
    by_cases hrsvd : cw.extractLsb' 64 2 = 0b11#2
    · rw [step_of_cmd_rsvd hport hrsvd] at hstep
      cases hstep
      exact .inl ⟨hrsvd, rfl⟩
    by_cases hunset : cw.extractLsb' 64 2 = 0b10#2 ∧ s.bv = false
    · obtain ⟨hdescr, hbv⟩ := hunset
      rw [step_of_cmd_descr_of_bv_eq_false hport hdescr hbv] at hstep
      cases hstep
      exact .inr ⟨hdescr, hbv, rfl⟩
    · obtain ⟨t, ht⟩ := exists_step_eq_next_of_cmd hport hrsvd
        fun hdescr => Bool.eq_true_of_not_eq_false fun hbv => hunset ⟨hdescr, hbv⟩
      rw [ht] at hstep
      cases hstep
  · rintro (⟨hrsvd, rfl⟩ | ⟨hdescr, hbv, rfl⟩)
    · exact step_of_cmd_rsvd hport hrsvd
    · exact step_of_cmd_descr_of_bv_eq_false hport hdescr hbv

/-- Settles O30: a step that is not one of the two refusals has a next state, and no command faults. -/
theorem refusalsAreExactlyTwo : Obligations.RefusalsAreExactlyTwo := by
  intro s cw rest hport
  refine ⟨step_eq_refused_iff hport, fun f => ?_, exists_step_eq_next_of_cmd hport⟩
  rw [step_command hport]
  exact exec_ne_fault _ _ f

/-! ### The faults of PARSE and LOCATE -/

theorem driverStep_of_malformed {s : State} (hstage : s.driver.stage = .parse .malformed) :
    driverStep s = .fault .malformedBinary := by
  simp [driverStep, hstage]

/-- The default selection finds nothing exactly when every on-disk size is 0 (R117). -/
theorem firstLoadable_eq_none_iff (segs : List Segment) :
    firstLoadable segs = none ↔ ∀ g ∈ segs, g.fileSize = 0 := by
  simp [firstLoadable, List.find?_eq_none]

theorem locate_of_select_eq_none {select : List Segment → Option Segment} {segs : List Segment}
    (h : select segs = none) (marker : SymName) (symbols : Option (List SymName)) :
    locate select marker symbols segs = .error .noLoadableSegment := by
  rw [locate, h]

theorem driverStep_of_locate_error {s : State} {symbols : Option (List SymName)} {segs : List Segment} {e : Fault}
    (hstage : s.driver.stage = .locate symbols segs)
    (h : locate firstLoadable s.cfg.markerName symbols segs = .error e) : driverStep s = .fault e := by
  simp [driverStep, hstage, h]

theorem driverStep_of_locate_ok {s : State} {symbols : Option (List SymName)} {segs : List Segment} {r : Region}
    (hstage : s.driver.stage = .locate symbols segs)
    (h : locate firstLoadable s.cfg.markerName symbols segs = .ok r) :
    driverStep s = .next (s.withDriver (s.driver.goto (.readWords r))) := by
  simp [driverStep, hstage, h]

/-- Settles O52: LOCATE fails exactly when the default selection finds no segment. -/
theorem noLoadableSegmentFaults : Obligations.NoLoadableSegmentFaults := by
  intro s symbols segs hport hstage
  rw [step_nil hport, ← firstLoadable_eq_none_iff]
  cases hsel : firstLoadable segs with
  | none => simp [driverStep_of_locate_error hstage (locate_of_select_eq_none hsel _ _)]
  | some g => simp [driverStep_of_locate_ok hstage (locate_of_select hsel _ _)]

/-- Settles O51: with nothing at the port the host moves, and its parse stage has only the fault to answer. -/
theorem malformedMetadataFaults : Obligations.MalformedMetadataFaults := fun _ hport hstage =>
  (step_nil hport).trans (driverStep_of_malformed hstage)

end Sys2Proof.Machine
end

section
/-! Commands, ROM indices and records as bit patterns (30_encoding.md): decoding and encoding undo each other. -/

namespace Sys2Proof.Machine

/-! ### The two parts of a pattern -/

/-- A pattern is its high part before its low part. -/
theorem extract_append_extract {m n : Nat} (x : BitVec (m + n)) : x.extractLsb' n m ++ x.extractLsb' 0 n = x := by
  rw [BitVec.extractLsb'_append_extractLsb'_eq_extractLsb' (by omega)]
  exact BitVec.extractLsb'_eq_self

/-! ### Command words -/

/-- R50, R51: decoding reads off the `cmd` and the operand that encoding put down. -/
theorem decode_encode (i : Instr) : decode (encode i) = i := by
  cases i with
  | idle din => exact decode_encode_idle din
  | setbase a => exact (cmdSelectsCommand a).2.1
  | descr hi w =>
    refine (cmdSelectsCommand (hi ++ w)).2.2.1.trans ?_
    rw [BitVec.extractLsb'_append_eq_left, BitVec.extractLsb'_append_eq_right]
  | rsvd din => exact (cmdSelectsCommand din).2.2.2

/-- Settles O1: no operand bit is lost, so every command is well formed enough. -/
theorem decodeOfEncode : Obligations.DecodeOfEncode := fun i _ => decode_encode i

/-- Settles O2, by the word's `cmd`: the command keeps all of `din`, and `{cmd, din}` is the word. -/
theorem encodeOfDecode : Obligations.EncodeOfDecode := by
  intro cw
  refine Eq.trans ?_ (extract_append_extract (m := 2) (n := 64) cw)
  obtain h | h | h | h := cmd_cases (cw.extractLsb' 64 2)
  · rw [decode_of_cmd_idle h, h]; rfl
  · rw [decode_of_cmd_setbase h, h]; rfl
  · rw [decode_of_cmd_descr h, h, encode, Instr.din, extract_append_extract (m := 32) (n := 32)]; rfl
  · rw [decode_of_cmd_rsvd h, h]; rfl

/-- Settles O3: the four words of the vectors and one word of 67 bits, each evaluated. -/
theorem sampleWordsDecode : Obligations.SampleWordsDecode := by
  unfold Obligations.SampleWordsDecode
  decide

/-- Settles O33: `step` is `exec` behind the port, and `withFetchWord` presents exactly the word that was decoded. -/
theorem stepRunsDecodedCommand : Obligations.StepRunsDecodedCommand := by
  refine ⟨fun s cw rest hport => step_command hport, fun s nbits w i hdec => ?_⟩
  cases hw : commandWord w with
  | error e => simp [decodeTableWord, decodeNat, hw] at hdec
  | ok cw =>
    obtain rfl : decode cw = i := by simpa [decodeTableWord, decodeNat, hw] using hdec
    have hfetch : s.withFetchWord nbits w = s.withPort (.command cw :: s.port) := by simp [State.withFetchWord, hw]
    rw [hfetch, step_withPort_command, State.withPort_self]

/-! ### Command lines -/

theorem encode_toNat (i : Instr) : (encode i).toNat = i.cmd.toNat * 2 ^ 64 + i.din.toNat :=
  toNat_append_eq_mul_add i.cmd i.din

theorem setbaseWord_toNat (a : Addr) : (setbaseWord a).toNat = 2 ^ 64 + a.toNat := by
  simp [setbaseWord, encode_toNat, Instr.cmd, Instr.din]

theorem descrWord_toNat (w : Word) : (descrWord w).toNat = 2 * 2 ^ 64 + w.toNat := by
  have hdin : ((0 : Word) ++ w).toNat = w.toNat := (toNat_append_eq_mul_add 0 w).trans (by simp)
  rw [descrWord, encode_toNat, Instr.din, hdin, Instr.cmd]
  simp

theorem decode_setbaseWord (a : Addr) : decode (setbaseWord a) = .setbase a := decode_encode _

theorem decode_descrWord (w : Word) : decode (descrWord w) = .descr 0 w := decode_encode _

/-- Settles O57: the bounds of R62 make the operand of each line exact, and `descramble` is its SETBASE and its DESCRs. -/
theorem linesAssemble : Obligations.LinesAssemble := by
  refine ⟨by decide, by decide, rfl, fun a ha => ⟨_, rfl, ?_⟩, fun w hw => ⟨_, rfl, ?_⟩, fun a ws _ => ?_⟩
  · rw [setbaseWord_toNat, BitVec.toNat_ofNat, Nat.mod_eq_of_lt (of_decide_eq_true ha)]
  · rw [descrWord_toNat, BitVec.toNat_ofNat, Nat.mod_eq_of_lt (of_decide_eq_true hw)]
  · simp only [Line.expand, descrambleInputs, List.map_map, ← List.map_eq_flatMap]
    rfl

/-! ### ROM indices and records -/

/-- Settles O6: `j` and `v` are the two parts of the index. -/
theorem romIndexReadsEntry : Obligations.RomIndexReadsEntry := by
  refine ⟨fun c j v => ?_, fun a => ⟨(a.extractLsb' 4 3).toFin, a.extractLsb' 0 4, ?_⟩⟩
  · have hj : (BitVec.ofNat 3 j).toFin = j := Fin.ext (Nat.mod_eq_of_lt j.isLt)
    rw [romAt, romIndex, BitVec.extractLsb'_append_eq_left, BitVec.extractLsb'_append_eq_right, hj]
  · have hj : BitVec.ofNat 3 (a.extractLsb' 4 3).toFin = a.extractLsb' 4 3 :=
      (BitVec.ofNat_toNat 3 _).trans (BitVec.setWidth_eq _)
    rw [romIndex, hj]
    exact (extract_append_extract (m := 3) (n := 4) a).symm

theorem unpack_pack (r : DiagRec) : DiagRec.unpack r.pack = r := by
  have haddr : r.pack.extractLsb' 64 64 = r.address := by
    rw [DiagRec.pack, BitVec.extractLsb'_append_eq_of_le (by decide)]
    exact BitVec.extractLsb'_append_eq_left
  have hplain : r.pack.extractLsb' 32 32 = r.plainPartial := by
    rw [DiagRec.pack, BitVec.extractLsb'_append_eq_of_le (by decide)]
    exact BitVec.extractLsb'_append_eq_right
  have hunres : r.pack.extractLsb' 0 32 = r.unresolved := BitVec.extractLsb'_append_eq_right
  rw [DiagRec.unpack, haddr, hplain, hunres]

theorem pack_unpack (b : BitVec 128) : (DiagRec.unpack b).pack = b := by
  have hhigh : b.extractLsb' 64 64 ++ b.extractLsb' 32 32 = b.extractLsb' 32 96 :=
    BitVec.extractLsb'_append_extractLsb'_eq_extractLsb' rfl
  simp only [DiagRec.pack, DiagRec.unpack, hhigh]
  exact extract_append_extract (m := 96) (n := 32) b

/-- Settles O7: the fields are the parts of the pattern, the address highest. -/
theorem recordPacking : Obligations.RecordPacking := by
  refine ⟨unpack_pack, pack_unpack, fun r => ?_⟩
  rw [DiagRec.pack, toNat_append_eq_mul_add, toNat_append_eq_mul_add]
  omega

end Sys2Proof.Machine
end

section
/-! The machine's invariant: what the host's moves, the rst pin and the commands leave in the buffers, in the logs and of
the region held. -/

namespace Sys2Proof.Machine

/-! ### The host's moves -/

/-- The moves of the host that have a next state, one for each stage of R154; `driverStep_eq_next_iff` ties them to the
model. -/
inductive HostMove (s : State) : State → Prop where
  | waitForImage (stage : s.driver.stage = .noImage) : HostMove s s
  | load {file : Memory} {answer : Metadata} (stage : s.driver.stage = .load file answer) :
      HostMove s (s.withDriver { s.driver with buffer := file, stage := .parse answer })
  | parse {symbols : Option (List SymName)} {segs : List Segment}
      (stage : s.driver.stage = .parse (.parsed symbols segs)) :
      HostMove s (s.withDriver (s.driver.goto (.locate symbols segs)))
  | locate {symbols : Option (List SymName)} {segs : List Segment} {r : Region}
      (stage : s.driver.stage = .locate symbols segs)
      (region : locate firstLoadable s.cfg.markerName symbols segs = .ok r) :
      HostMove s (s.withDriver (s.driver.goto (.readWords r)))
  | readWords {r : Region} {ws : List Word} (stage : s.driver.stage = .readWords r)
      (words : readRegion s.driver.buffer r = some ws) : HostMove s (s.withDriver (s.driver.goto (.drive r ws)))
  | drive {r : Region} {ws : List Word} (stage : s.driver.stage = .drive r ws) :
      HostMove s ((s.present (driveInputs r ws)).withDriver (s.driver.goto (.splice r)))
  | splice {r : Region} {m : Memory} (stage : s.driver.stage = .splice r)
      (spliced : spliceRegion s.driver.buffer r s.outlog = some m) :
      HostMove s (s.withDriver { s.driver with buffer := m, stage := .write })
  | write (stage : s.driver.stage = .write) :
      HostMove s (s.withDriver { s.driver with destination := some s.driver.buffer, stage := .report })
  | report (stage : s.driver.stage = .report) :
      HostMove s (s.withDriver { s.driver with sink := s.driver.sink ++ s.diaglog.map diagLine, stage := .done })
  | waitAtEnd (stage : s.driver.stage = .done) : HostMove s s

/-- The host's stage with a next state is one of its moves, and every move is such a stage. -/
theorem driverStep_eq_next_iff {s t : State} : driverStep s = .next t ↔ HostMove s t := by
  constructor
  · intro h
    simp only [driverStep] at h
    split at h
    case h_1 hs => cases h; exact .waitForImage hs
    case h_2 hs => cases h; exact .load hs
    case h_3 => cases h
    case h_4 hs => cases h; exact .parse hs
    case h_5 hs =>
      split at h
      · cases h
      · next hr => cases h; exact .locate hs hr
    case h_6 hs =>
      split at h
      · cases h
      · next hws => cases h; exact .readWords hs hws
    case h_7 hs => cases h; exact .drive hs
    case h_8 hs =>
      split at h
      · cases h
      · next hm => cases h; exact .splice hs hm
    case h_9 hs => cases h; exact .write hs
    case h_10 hs => cases h; exact .report hs
    case h_11 hs => cases h; exact .waitAtEnd hs
  · rintro (_ | _ | _ | _ | _ | _ | _ | _ | _ | _) <;> simp [driverStep, *]

/-- With an empty port a step with a next state is a move of the host. -/
theorem step_eq_next_iff_hostMove {s t : State} (hport : s.port = []) : step s = .next t ↔ HostMove s t := by
  rw [step_nil hport, driverStep_eq_next_iff]

/-! ### The host's buffers -/

/-- No stage but LOAD holds a buffer of its own. -/
theorem Driver.BuffersCanonical.goto {d : Driver} (h : d.BuffersCanonical) {g : Stage}
    (hg : ∀ file answer, g ≠ .load file answer) : (d.goto g).BuffersCanonical := by
  obtain ⟨hbuf, hdest, -⟩ := h
  exact ⟨hbuf, hdest, fun file answer hload => absurd hload (hg file answer)⟩

theorem HostMove.buffersCanonical {s t : State} (hmove : HostMove s t) (h : s.driver.BuffersCanonical) :
    t.driver.BuffersCanonical := by
  obtain ⟨hbuf, hdest, hfile⟩ := h
  have hgoto {g : Stage} (hg : ∀ file answer, g ≠ .load file answer) : (s.driver.goto g).BuffersCanonical :=
    Driver.BuffersCanonical.goto ⟨hbuf, hdest, hfile⟩ hg
  cases hmove with
  | waitForImage | waitAtEnd => exact ⟨hbuf, hdest, hfile⟩
  | load hs => exact ⟨hfile _ _ hs, hdest, nofun⟩
  | parse | locate | readWords | drive => exact hgoto nofun
  | splice _ hm => exact ⟨spliceRegion_wf hbuf hm, hdest, nofun⟩
  | write => exact ⟨hbuf, by rintro m ⟨⟩; exact hbuf, nofun⟩
  | report => exact ⟨hbuf, hdest, nofun⟩

/-! ### The block's steps and the host -/

/-- While something stands at the port the block moves, and the host stays as it is. -/
theorem step_keeps_driver {s t : State} (hport : s.port ≠ []) (h : step s = .next t) : t.driver = s.driver := by
  obtain ⟨hnil, -⟩ | ⟨rest, -, rfl⟩ | ⟨cw, rest, -, he⟩ := step_cases h
  · exact absurd hnil hport
  · rfl
  · exact (exec_frame he).2.2

theorem step_keeps_buffersCanonical {s t : State} (h : step s = .next t) (hs : s.driver.BuffersCanonical) :
    t.driver.BuffersCanonical := by
  by_cases hport : s.port = []
  · exact ((step_eq_next_iff_hostMove hport).1 h).buffersCanonical hs
  · rwa [step_keeps_driver hport h]

/-! ### The logs -/

/-- All that a step can do to the logs: keep both, empty both, or log one word (R21, R22). -/
theorem step_logs_cases {s t : State} (h : step s = .next t) :
    (t.outlog = s.outlog ∧ t.diaglog = s.diaglog) ∨ (t.outlog = [] ∧ t.diaglog = []) ∨
      ∃ a w, t.outlog = s.outlog ++ [plainw s.cfg w] ∧
        t.diaglog = if anyu s.cfg w then
            s.diaglog ++ [{ address := a, plainPartial := plainw s.cfg w, unresolved := unresw s.cfg w }]
          else s.diaglog := by
  obtain ⟨-, hd⟩ | ⟨rest, -, rfl⟩ | ⟨cw, rest, -, he⟩ := step_cases h
  · obtain ⟨-, -, -, hout, hdiag⟩ := driverStep_frame hd
    exact .inl ⟨hout, hdiag⟩
  · exact .inr (.inl ⟨rfl, rfl⟩)
  · obtain ⟨d, -, rfl⟩ | ⟨a, -, rfl⟩ | ⟨hi, w, b, -, -, rfl⟩ := exec_cases he
    · exact .inl ⟨rfl, rfl⟩
    · exact .inl ⟨rfl, rfl⟩
    · refine .inr (.inr ⟨addrOf b s.idx, w, by simp, ?_⟩)
      exact emit_descrPorts_diaglog (s.withPort rest) b w

/-- R81, R105: the record of a word with an unresolved group is sound. -/
theorem record_sound {c : Config} {w : Word} (h : anyu c w = true) (a : Addr) :
    DiagRec.Sound c { address := a, plainPartial := plainw c w, unresolved := unresw c w } :=
  ⟨plainw_and_unresw c w, guw c w, (anyu_iff_guw_ne_zero c w).1 h, unresw_eq_maskOfGroups c w⟩

theorem step_keeps_sound {s t : State} (h : step s = .next t) (hs : ∀ r ∈ s.diaglog, r.Sound s.cfg) :
    ∀ r ∈ t.diaglog, r.Sound t.cfg := by
  rw [step_keeps_cfg h]
  obtain ⟨-, hdiag⟩ | ⟨-, hdiag⟩ | ⟨a, w, -, hdiag⟩ := step_logs_cases h
  · rwa [hdiag]
  · simp [hdiag]
  · rw [hdiag]
    split
    · next hany =>
      intro r hr
      obtain hr | hr := List.mem_append.1 hr
      · exact hs r hr
      · obtain rfl := List.mem_singleton.1 hr
        exact record_sound hany a
    · exact hs

theorem step_keeps_sublist {s t : State} (h : step s = .next t)
    (hs : (s.diaglog.map DiagRec.plainPartial).Sublist s.outlog) :
    (t.diaglog.map DiagRec.plainPartial).Sublist t.outlog := by
  obtain ⟨hout, hdiag⟩ | ⟨hout, hdiag⟩ | ⟨a, w, hout, hdiag⟩ := step_logs_cases h
  · rwa [hout, hdiag]
  · simp [hout, hdiag]
  · rw [hout, hdiag]
    split
    · rw [List.map_append]
      exact hs.append (List.Sublist.refl _)
    · exact hs.trans (List.sublist_append_left _ _)

/-! ### The region held -/

@[simp] theorem wordsAfter_rst (l : List PortInput) (n : Nat) : wordsAfter (.rst :: l) n = wordsAfter l 0 := rfl

@[simp] theorem wordsAfter_setbase (a : Addr) (l : List PortInput) (n : Nat) :
    wordsAfter (.command (setbaseWord a) :: l) n = wordsAfter l n := by
  simp [wordsAfter, decode_setbaseWord]

@[simp] theorem wordsAfter_descr (w : Word) (l : List PortInput) (n : Nat) :
    wordsAfter (.command (descrWord w) :: l) n = wordsAfter l (n + 1) := by
  simp [wordsAfter, decode_descrWord]

theorem wordsAfter_descrs (ws : List Word) (n : Nat) :
    wordsAfter (ws.map fun w => .command (descrWord w)) n = n + ws.length := by
  induction ws generalizing n with
  | nil => rfl
  | cons w ws ih =>
    rw [List.map_cons, wordsAfter_descr, ih, List.length_cons]
    omega

/-- What DRIVE presents brings exactly the region's words to OUTLOG, whatever it held (R122). -/
theorem wordsAfter_driveInputs (r : Region) (ws : List Word) (n : Nat) :
    wordsAfter (driveInputs r ws) n = ws.length := by
  rw [driveInputs, descrambleInputs, wordsAfter_rst, wordsAfter_setbase, wordsAfter_descrs, Nat.zero_add]

/-- A step of the block logs the words it takes from the port. -/
theorem step_wordsAfter {s t : State} (hport : s.port ≠ []) (h : step s = .next t) :
    wordsAfter t.port t.outlog.length = wordsAfter s.port s.outlog.length := by
  obtain ⟨hnil, -⟩ | ⟨rest, hp, rfl⟩ | ⟨cw, rest, hp, he⟩ := step_cases h
  · exact absurd hnil hport
  · simp [hp]
  · obtain ⟨d, hi, rfl⟩ | ⟨a, hi, rfl⟩ | ⟨hi', w, b, hi, -, rfl⟩ := exec_cases he
    all_goals simp [hp, wordsAfter, hi]

/-- The region held depends on the host and on the words to come. -/
theorem State.RegionHeld.congr {s t : State} (hs : s.RegionHeld) (hdriver : t.driver = s.driver)
    (hwords : wordsAfter t.port t.outlog.length = wordsAfter s.port s.outlog.length) : t.RegionHeld := by
  unfold State.RegionHeld at hs ⊢
  rwa [hdriver, hwords]

theorem HostMove.regionHeld {s t : State} (hmove : HostMove s t) (hport : s.port = []) (hs : s.RegionHeld) :
    t.RegionHeld := by
  cases hmove with
  | waitForImage | waitAtEnd => exact hs
  | load | parse | locate | splice | write | report => trivial
  | readWords _ hws => exact readRegion_eq_some hws
  | @drive r ws hstage =>
    obtain ⟨havail, hlen⟩ : r.available s.driver.buffer = true ∧ ws.length = r.length.toNat / 4 := by
      simpa [State.RegionHeld, hstage] using hs
    refine ⟨havail, ?_⟩
    rw [← hlen]
    simpa [hport] using wordsAfter_driveInputs r ws s.outlog.length

theorem step_keeps_regionHeld {s t : State} (h : step s = .next t) (hs : s.RegionHeld) : t.RegionHeld := by
  by_cases hport : s.port = []
  · exact ((step_eq_next_iff_hostMove hport).1 h).regionHeld hport hs
  · exact hs.congr (step_keeps_driver hport h) (step_wordsAfter hport h)

/-! ### The invariant -/

/-- Settles O58, conjunct by conjunct of the invariant. -/
theorem invariantKeptByStep : Obligations.InvariantKeptByStep := by
  rintro s t ⟨hbuf, hsound, hsub, hregion⟩ h
  exact ⟨step_keeps_buffersCanonical h hbuf, step_keeps_sound h hsound, step_keeps_sublist h hsub,
    step_keeps_regionHeld h hregion⟩

/-- Settles O59: at reset the buffer and the logs are empty; giving an image changes the stage only. -/
theorem invariantHoldsAtReset : Obligations.InvariantHoldsAtReset := by
  refine ⟨⟨⟨Memory.empty_wf, nofun, nofun⟩, nofun, List.Sublist.refl _, trivial⟩, ?_⟩
  rintro s file answer ⟨⟨hbuf, hdest, -⟩, hsound, hsub, -⟩ hfile
  exact ⟨⟨hbuf, hdest, by rintro _ _ ⟨⟩; exact hfile⟩, hsound, hsub, trivial⟩

end Sys2Proof.Machine
end

section
/-! The wiring and the datapath (10_state.md, 40_datapath.md): the groups partition the word, INV undoes GROUP, and what
the gathers determine. -/

namespace Sys2Proof.Machine

/-! ### The group masks -/

/-- The mask of a group is the union of that group alone. -/
theorem gmask_eq_maskOfGroups (c : Config) (j : Fin 8) : gmask c j = maskOfGroups c (bitAt 8 true j.val) := by
  refine word_ext c fun i k => ?_
  rw [bit_gmask, bit_maskOfGroups, bit_bitAt]
  simp [Fin.ext_iff, eq_comm]

theorem length_maskToSet_gmask (c : Config) (j : Fin 8) : (maskToSet (gmask c j)).length = 4 := by
  have hone : (Finset.univ.filter fun i : Fin 8 => bit (bitAt 8 true j.val) i.val = true) = {j} := by
    ext i
    simp [bit_bitAt, Fin.ext_iff]
  rw [gmask_eq_maskOfGroups, length_maskToSet_maskOfGroups, hone, Finset.card_singleton]

theorem gmask_and_gmask (c : Config) {i j : Fin 8} (h : i ≠ j) : gmask c i &&& gmask c j = 0 := by
  refine word_ext c fun m k => ?_
  rw [bit_and, bit_gmask, bit_gmask]
  by_cases hi : i = m
  · have hj : j ≠ m := fun hj => h (hi.trans hj.symm)
    simp [hj]
  · simp [hi]

theorem orAll_gmask (c : Config) : orAll (groups.map (gmask c)) = 0xFFFFFFFF := by
  refine word_ext c fun j k => ?_
  have hset : bit (orAll (groups.map (gmask c))) (c.pos j k).val = true :=
    (bit_orAll_groups _ _).2 ⟨j, by simp [bit_gmask]⟩
  exact hset.trans (bit_ones_word _).symm

/-- Settles O9, at the positions `GROUP[j][k]`, which are all positions of the word. -/
theorem groupMasksPartitionWord : Obligations.GroupMasksPartitionWord := fun c =>
  ⟨length_maskToSet_gmask c, fun _ _ => gmask_and_gmask c, orAll_gmask c⟩

theorem mem_maskToSet_gmask (c : Config) (j : Fin 8) (p : Fin 32) :
    p ∈ maskToSet (gmask c j) ↔ ∃ k, p = c.pos j k := by
  obtain ⟨i, k, rfl⟩ := c.pos_surj p
  rw [mem_maskToSet, bit_gmask]
  simp [eq_comm]

/-! ### INV and the mux tree -/

/-- The search of INV meets a pair whose position is `p`, because there is one (R14). -/
theorem pos_inv (c : Config) (p : Fin 32) : c.pos (inv c p).1 (inv c p).2 = p := by
  obtain ⟨j, k, hjk⟩ := c.pos_surj p
  have hmem : (j, k) ∈ groups.flatMap fun j => slots.map fun k => (j, k) :=
    List.mem_flatMap.2 ⟨j, mem_groups j, List.mem_map.2 ⟨k, mem_slots k, rfl⟩⟩
  obtain ⟨q, hq⟩ := Option.isSome_iff_exists.1
    (List.find?_isSome (p := fun q : Fin 8 × Fin 4 => c.pos q.1 q.2 == p).2 ⟨(j, k), hmem, beq_iff_eq.2 hjk⟩)
  have hpos : c.pos q.1 q.2 = p := by simpa using List.find?_some hq
  rw [inv, hq]
  exact hpos

theorem inv_pos (c : Config) (j : Fin 8) (k : Fin 4) : inv c (c.pos j k) = (j, k) :=
  Prod.ext_iff.2 (c.pos_inj (pos_inv c (c.pos j k)))

/-- Settles O10: GROUP after INV by the search of INV, INV after GROUP because GROUP repeats no position. -/
theorem inverseWiring : Obligations.InverseWiring := fun c => ⟨pos_inv c, inv_pos c⟩

/-- Settles O18: at `GROUP[j][k]` the mux tree reads ROM `j`, as PLAINW and UNRESW do. -/
theorem muxTreeForm : Obligations.MuxTreeForm := by
  intro c w p
  obtain ⟨j, k, rfl⟩ := c.pos_surj p
  constructor
  · rw [muxPlainBit, inv_pos]
    exact bit_plainw c w j k
  · rw [bit_unresw, muxUnresBit, inv_pos]

/-! ### The gathers determine the word -/

/-- The word that holds a chosen value in each group (R75). -/
def scatterAll (c : Config) (v : Fin 8 → Nibble) : Word := orAll (groups.map fun j => scatter c j (v j))

theorem gather_scatterAll (c : Config) (v : Fin 8 → Nibble) (j : Fin 8) : gather c (scatterAll c v) j = v j := by
  refine nibble_ext fun k => ?_
  rw [bit_gather, scatterAll, Bool.eq_iff_iff, bit_orAll_groups]
  simp [bit_scatter]

/-- R71: a word has no bit outside its groups. -/
theorem eq_of_gather_eq (c : Config) {x y : Word} (h : ∀ j, gather c x j = gather c y j) : x = y := by
  refine word_ext c fun j k => ?_
  rw [← bit_gather, ← bit_gather, h]

/-- Settles O12: scattering the values gives the word, and the gathers leave no other. -/
theorem gathersRearrangeWord : Obligations.GathersRearrangeWord := fun c v =>
  ⟨scatterAll c v, gather_scatterAll c v, fun _ hw => eq_of_gather_eq c fun j => (hw j).trans (gather_scatterAll c v j).symm⟩

/-! ### Bijective tables -/

/-- A group whose table is a permutation has its value permuted (R83). -/
theorem gather_plainw_of_tableIs {c : Config} {j : Fin 8} {f : Equiv.Perm Nibble} (h : TableIs c j f) (w : Word) :
    gather c (plainw c w) j = f (gather c w j) := by
  rw [gather_plainw, laneEntry, h]

/-- If all eight tables are permutations, the plaintext determines every gather and so the word. -/
theorem plainw_injective {c : Config} (h : ∀ j, ∃ f : Equiv.Perm Nibble, TableIs c j f) :
    Function.Injective (plainw c) := by
  intro x y hxy
  refine eq_of_gather_eq c fun j => ?_
  obtain ⟨f, hf⟩ := h j
  apply f.injective
  rw [← gather_plainw_of_tableIs hf, ← gather_plainw_of_tableIs hf, hxy]

/-- Settles O21: on the finite set of words an injective PLAINW is a bijection, and a permutation has no unresolved
entry. -/
theorem bijectiveTablesInvertible : Obligations.BijectiveTablesInvertible := by
  refine ⟨fun c j f hf w => ?_, fun c h => ⟨?_, fun w => ?_⟩⟩
  · rw [gather_plainw_of_tableIs hf, Equiv.symm_apply_apply]
  · exact Finite.injective_iff_bijective.1 (plainw_injective h)
  · refine (unresw_eq_zero_iff c w).2 fun j => ?_
    obtain ⟨f, hf⟩ := h j
    exact ⟨_, hf _⟩

/-! ### The ports of two states -/

/-- A DESCR with ports has BV = 1, and the ports are those of its word (R52). -/
theorem outPorts_descr_eq_some {hi w : Word} {s : State} {p : OutPorts} (h : outPorts (.descr hi w) s = some p) :
    ∃ b, s.base = some b ∧ p = descrPorts s.cfg b s.idx w := by
  obtain ⟨b, hb, hp⟩ := Option.map_eq_some_iff.1 h
  exact ⟨b, hb, hp.symm⟩

/-- Settles O22: the ports are a function of the configuration, BASE, IDX and the word, and only the address reads BASE
and IDX. -/
theorem wordsIndependent : Obligations.WordsIndependent := by
  intro s t hi hi' w p q hcfg hp hq
  obtain ⟨b, hb, rfl⟩ := outPorts_descr_eq_some hp
  obtain ⟨b', hb', rfl⟩ := outPorts_descr_eq_some hq
  rw [hcfg]
  refine ⟨rfl, rfl, rfl, rfl, fun hbase hidx => ?_⟩
  obtain rfl : b = b' := Option.some.inj (hb.symm.trans (hbase.trans hb'))
  rw [hidx]

/-! ### One unresolved group -/

section OneUnresolvedGroup

variable {c : Config} {w : Word} {i : Fin 8} (hi : laneEntry c w i = .unresolved)
  (hrest : ∀ j, j ≠ i → laneEntry c w j = .resolved 0)
include hi hrest

/-- An unresolved group gives 0 as the groups that resolve to 0 do (R81). -/
theorem plainw_of_one_unresolved : plainw c w = 0 := by
  refine word_ext c fun j k => ?_
  by_cases hj : j = i
  · simp [hj, bit_plainw_of_unresolved hi]
  · simp [bit_plainw, hrest j hj]

theorem unresw_of_one_unresolved : unresw c w = gmask c i := by
  refine word_ext c fun j k => ?_
  rw [bit_unresw, bit_gmask]
  by_cases hj : j = i
  · simp [hj, hi, ucmp]
  · simp [hrest j hj, ucmp, Ne.symm hj]

end OneUnresolvedGroup

/-- Settles O44: the record of the word carries PLAINW = 0 and UNRESW = GMASK[3]. -/
theorem oneUnresolvedGroupWord : Obligations.OneUnresolvedGroupWord := by
  intro hi w s b hb hthree hrest
  have hany : anyu s.cfg w = true := (anyu_iff_exists_unresolved s.cfg w).2 ⟨3, hthree⟩
  have hplain := plainw_of_one_unresolved hthree hrest
  have hunres := unresw_of_one_unresolved hthree hrest
  refine ⟨_, exec_descr hb hi w, ?_, ?_, mem_maskToSet_gmask s.cfg 3⟩
  · rw [State.advance_outlog, State.emit_outlog, descrPorts_plain, hplain]
  · rw [State.advance_diaglog, emit_descrPorts_diaglog, if_pos hany, hplain, hunres]

end Sys2Proof.Machine
end

section
/-! The commands in runs (41_commands.md): what each leaves unchanged, and the call `descramble(words, base_addr)` as a run. -/

namespace Sys2Proof.Machine

/-! ### Frames -/

/-- Settles O31: the frame of every command, and what the one meaning of each keeps. -/
theorem commandFrames : Obligations.CommandFrames := by
  refine ⟨fun i s t h => ?_, fun din s t h => ?_, fun a s t h => ?_, fun hi w s t h => ?_⟩
  · obtain ⟨hcfg, hport, hdriver⟩ := exec_frame h
    exact ⟨hcfg, hport, hdriver, fun a => by rw [hdriver]⟩
  · cases h
    exact ⟨rfl, rfl, rfl, rfl⟩
  · cases h
    exact ⟨rfl, rfl⟩
  · obtain ⟨d, ⟨⟩, -⟩ | ⟨a, ⟨⟩, -⟩ | ⟨hi', w', b, -, hb, rfl⟩ := exec_cases h
    refine ⟨by simp, by simp [State.bv], ⟨_, State.emit_outlog _ _⟩, ?_⟩
    rw [State.advance_diaglog, emit_descrPorts_diaglog]
    split
    · exact .inr ⟨_, rfl⟩
    · exact .inl rfl

/-- Settles O37, by what the step was: a stage of the host, RESET, IDLE, SETBASE or a DESCR with BV = 1. -/
theorem registersWrittenOnlyBy : Obligations.RegistersWrittenOnlyBy := by
  intro s t h
  obtain ⟨hp, hd⟩ | ⟨rest, hp, rfl⟩ | ⟨cw, rest, hp, he⟩ := step_cases h
  · obtain ⟨-, hbase, hidx, -, -⟩ := driverStep_frame hd
    simp [hp, hbase, hidx]
  · simp [hp]
  · obtain ⟨d, hi, rfl⟩ | ⟨a, hi, rfl⟩ | ⟨hi', w, b, hi, -, rfl⟩ := exec_cases he
    all_goals simp [hp, hi]

/-- Settles O34: with no image, or after its run, the host's move is to wait. -/
theorem emptyPortLeavesMoveToHost : Obligations.EmptyPortLeavesMoveToHost := by
  intro s hport
  refine ⟨step_nil hport, ?_⟩
  rintro (hstage | hstage)
  · exact (step_eq_next_iff_hostMove hport).2 (.waitForImage hstage)
  · exact (step_eq_next_iff_hostMove hport).2 (.waitAtEnd hstage)

/-! ### The records of a call -/

/-- The records of the words of a call from index `k` on (R98). -/
def callRecordsFrom (c : Config) (base : Addr) (k : Nat) (ws : List Word) : List DiagRec :=
  (ws.zipIdx k).filterMap fun q =>
    if anyu c q.1 then
      some { address := BitVec.ofNat 64 (base.toNat + 4 * q.2), plainPartial := plainw c q.1, unresolved := unresw c q.1 }
    else none

theorem callRecords_eq_from_zero (c : Config) (base : Addr) (ws : List Word) :
    callRecords c base ws = callRecordsFrom c base 0 ws := rfl

@[simp] theorem callRecordsFrom_nil (c : Config) (base : Addr) (k : Nat) : callRecordsFrom c base k [] = [] := rfl

theorem callRecordsFrom_cons (c : Config) (base : Addr) (k : Nat) (w : Word) (ws : List Word) :
    callRecordsFrom c base k (w :: ws) =
      if anyu c w then
        { address := BitVec.ofNat 64 (base.toNat + 4 * k), plainPartial := plainw c w, unresolved := unresw c w } ::
          callRecordsFrom c base (k + 1) ws
      else callRecordsFrom c base (k + 1) ws := by
  rw [callRecordsFrom, List.zipIdx_cons, List.filterMap_cons]
  cases anyu c w <;> rfl

/-- Each record of a call carries the address of one of its words. -/
theorem address_of_mem_callRecordsFrom {c : Config} {base : Addr} {k : Nat} {ws : List Word} {r : DiagRec}
    (h : r ∈ callRecordsFrom c base k ws) :
    ∃ i, k ≤ i ∧ i < k + ws.length ∧ r.address = BitVec.ofNat 64 (base.toNat + 4 * i) := by
  obtain ⟨⟨w, i⟩, hmem, hr⟩ := List.mem_filterMap.1 h
  obtain ⟨hle, hlt, -⟩ := List.mem_zipIdx hmem
  refine ⟨i, hle, hlt, ?_⟩
  split at hr
  · cases hr; rfl
  · cases hr

/-- R109: the addresses of a call's records rise while none of them wraps. -/
theorem callRecordsFrom_pairwise {c : Config} {base : Addr} {k : Nat} {ws : List Word}
    (hnowrap : base.toNat + 4 * (k + ws.length) ≤ 2 ^ 64) :
    (callRecordsFrom c base k ws).Pairwise fun q r => q.address.toNat < r.address.toNat := by
  induction ws generalizing k with
  | nil => exact .nil
  | cons w ws ih =>
    rw [List.length_cons] at hnowrap
    have htail := ih (k := k + 1) (by omega)
    rw [callRecordsFrom_cons]
    split
    · refine List.pairwise_cons.2 ⟨fun r hr => ?_, htail⟩
      obtain ⟨i, hle, hlt, haddr⟩ := address_of_mem_callRecordsFrom hr
      rw [haddr, BitVec.toNat_ofNat, BitVec.toNat_ofNat, Nat.mod_eq_of_lt (by omega), Nat.mod_eq_of_lt (by omega)]
      omega
    · exact htail

theorem callRecords_pairwise {c : Config} {base : Addr} {ws : List Word} (hnowrap : NoWrap base ws.length) :
    (callRecords c base ws).Pairwise fun q r => q.address.toNat < r.address.toNat := by
  rw [callRecords_eq_from_zero]
  exact callRecordsFrom_pairwise (by rwa [Nat.zero_add])

/-! ### The run of a call -/

/-- ADDR at an index given as a number (R38). -/
theorem addrOf_ofNat (b : Addr) (k : Nat) : addrOf b (BitVec.ofNat 64 k) = BitVec.ofNat 64 (b.toNat + 4 * k) := by
  apply BitVec.eq_of_toNat_eq
  rw [addrOf_toNat, BitVec.toNat_ofNat, BitVec.toNat_ofNat]
  omega

theorem step_withPort_setbase (s : State) (a : Addr) (l : List PortInput) :
    step (s.withPort (.command (setbaseWord a) :: l)) = .next ((s.startSequence a).withPort l) := by
  rw [step_withPort_command, decode_setbaseWord]
  rfl

/-- The block after the DESCRs of `ws` under BASE = `b`, the first of them at index `k`. -/
def State.afterDescrs (s : State) (b : Addr) (k : Nat) (ws : List Word) : State :=
  { s with
    idx := BitVec.ofNat 64 (k + ws.length)
    outlog := s.outlog ++ ws.map (plainw s.cfg)
    diaglog := s.diaglog ++ callRecordsFrom s.cfg b k ws }

/-- A DESCR at index `k`, and then the words after it. -/
theorem emit_advance_afterDescrs {s : State} {k : Nat} (hk : s.idx = BitVec.ofNat 64 k) (b : Addr) (w : Word)
    (ws : List Word) :
    ((s.emit (descrPorts s.cfg b s.idx w)).advance).afterDescrs b (k + 1) ws = s.afterDescrs b k (w :: ws) := by
  rw [emit_descrPorts_advance, hk, addrOf_ofNat]
  unfold State.afterDescrs
  congr 1
  · rw [List.length_cons]
    congr 1
    omega
  · simp
  · rw [callRecordsFrom_cons]
    split <;> simp

/-- The DESCRs of a call, from any index on: induction over the words (R98). -/
theorem run_descrs (rest : List PortInput) {s : State} {b : Addr} {k : Nat} (ws : List Word) (hb : s.base = some b)
    (hk : s.idx = BitVec.ofNat 64 k) :
    run ws.length (s.withPort ((ws.map fun w => .command (descrWord w)) ++ rest)) =
      .next ((s.afterDescrs b k ws).withPort rest) := by
  induction ws generalizing s k with
  | nil => simp [State.afterDescrs, State.withPort, hk]
  | cons w ws ih =>
    have hstep (l : List PortInput) : step (s.withPort (.command (descrWord w) :: l)) =
        .next ((s.emit (descrPorts s.cfg b s.idx w)).advance.withPort l) := by
      rw [step_withPort_command, decode_descrWord]
      exact exec_withPort l (exec_descr hb 0 w)
    have hidx : (s.emit (descrPorts s.cfg b s.idx w)).advance.idx = BitVec.ofNat 64 (k + 1) := by
      rw [State.advance_idx, State.emit_idx, hk, BitVec.ofNat_add]
      rfl
    rw [List.map_cons, List.cons_append, List.length_cons, run_succ_next (hstep _), ih (by simpa using hb) hidx,
      emit_advance_afterDescrs hk]

/-- The run of a call, with whatever stands at the port behind it. -/
theorem run_descrambleInputs (s : State) (a : Addr) (ws : List Word) (rest : List PortInput) :
    run (ws.length + 1) (s.withPort (descrambleInputs a ws ++ rest)) =
      .next (((s.startSequence a).afterDescrs a 0 ws).withPort rest) := by
  rw [descrambleInputs, List.cons_append, run_succ_next (step_withPort_setbase s a _)]
  exact run_descrs rest ws rfl rfl

/-- Settles O40: SETBASE starts at index 0, each DESCR logs its word, and addresses that do not wrap rise with the index. -/
theorem descrambleSequence : Obligations.DescrambleSequence := by
  refine ⟨fun s a ws rest => ?_, fun c a ws => callRecords_pairwise⟩
  rw [run_descrambleInputs, State.afterDescrs, Nat.zero_add, callRecords_eq_from_zero]
  rfl

/-! ### All-zero words -/

section ZeroTables

variable {c : Config} (hzero : ∀ j, slookup c j 0 = .resolved 0)
include hzero

theorem laneEntry_zero (j : Fin 8) : laneEntry c 0 j = .resolved 0 := by
  rw [laneEntry, gather_zero, hzero]

theorem plainw_zero : plainw c 0 = 0 := by
  refine word_ext c fun j k => ?_
  rw [bit_plainw, laneEntry_zero hzero]
  simp

theorem anyu_zero : ¬ anyu c 0 = true := by
  rw [anyu_iff_exists_unresolved]
  rintro ⟨j, hj⟩
  rw [laneEntry_zero hzero] at hj
  cases hj

theorem callRecords_replicate_zero (a : Addr) (n : Nat) : callRecords c a (List.replicate n 0) = [] := by
  refine List.filterMap_eq_nil_iff.2 fun q hq => ?_
  have hq0 : q.1 = 0 := List.eq_of_mem_replicate (List.fst_mem_of_mem_zipIdx hq)
  rw [hq0, if_neg (anyu_zero hzero)]

end ZeroTables

/-- Settles O43: the call's run, in which each word is 0 and none leaves a record. -/
theorem allZeroRegion : Obligations.AllZeroRegion := by
  intro s a n hzero
  have hrun := descrambleSequence.1 s a (List.replicate n 0) []
  rw [List.length_replicate, List.append_nil] at hrun
  refine ⟨_, hrun, ?_, ?_⟩
  · simp only [List.map_replicate, plainw_zero hzero]
  · simp only [callRecords_replicate_zero hzero, List.append_nil]

end Sys2Proof.Machine
end

section
/-! The diagnostic line (42_diagnostics.md): the binary rendering position by position, and hexadecimal digits that read
back. -/

namespace Sys2Proof.Machine

/-! ### The binary rendering -/

theorem binDown_eq_map (r : DiagRec) (n : Nat) : binDown r n = (List.range n).reverse.map (binChar r) := by
  induction n with
  | zero => rfl
  | succ n ih => rw [binDown, ih, List.range_succ, List.reverse_append]; rfl

theorem binDown_length (r : DiagRec) (n : Nat) : (binDown r n).length = n := by simp [binDown_eq_map]

/-- R111: position `p` is the character `p` places before the last. -/
theorem bin32x_getElem? (r : DiagRec) (p : Fin 32) : (bin32x r)[31 - p.val]? = some (binChar r p.val) := by
  have hlt : 31 - p.val < 32 := by omega
  have hpos : 31 - (31 - p.val) = p.val := by omega
  simp [bin32x, binDown_eq_map, hlt, hpos]

theorem binChar_eq_x (r : DiagRec) (p : Nat) : binChar r p = 'x' ↔ bit r.unresolved p = true := by
  unfold binChar
  split
  · simp [*]
  · split <;> simp [*]

/-- The rendering has one `x` for each unresolved position. -/
theorem count_x_bin32x (r : DiagRec) : (bin32x r).count 'x' = (maskToSet r.unresolved).length := by
  have hx : ((· == 'x') ∘ binChar r) = bit r.unresolved := by
    funext p
    rw [Bool.eq_iff_iff, ← binChar_eq_x]
    exact beq_iff_eq
  rw [bin32x, binDown_eq_map, List.count_eq_countP, List.countP_map, hx, List.countP_reverse, ← List.map_coe_finRange_eq_range,
    List.countP_map, List.countP_eq_length_filter]
  rfl

/-- A filter of the eight groups, counted as a list and as a set. -/
theorem card_filter_groups (p : Fin 8 → Bool) :
    (Finset.univ.filter fun j : Fin 8 => p j = true).card = (groups.filter p).length := by
  have hnodup : groups.Nodup := by decide
  have hset : (groups.filter p).toFinset = Finset.univ.filter fun j : Fin 8 => p j = true := by
    ext j
    simp [mem_groups]
  rw [← hset, List.toFinset_card_of_nodup (hnodup.filter p)]

/-- A word has four unresolved positions for each unresolved group (R57, R78). -/
theorem length_maskToSet_unresw (c : Config) (w : Word) :
    (maskToSet (unresw c w)).length = 4 * (groups.filter fun j => bit (guw c w) j.val).length := by
  rw [unresw_eq_maskOfGroups, length_maskToSet_maskOfGroups, card_filter_groups, Nat.mul_comm]

/-- Settles O45: the rendering lists `c_31 ... c_0`, and counts `x` as the mask counts positions. -/
theorem binaryRendering : Obligations.BinaryRendering :=
  ⟨fun r => ⟨binDown_length r 32, bin32x_getElem? r⟩,
    fun c w _ => (count_x_bin32x _).trans (length_maskToSet_unresw c w)⟩

/-! ### Hexadecimal digits -/

theorem digitIn_digitChar {d : Nat} (hd : d < 16) : digitIn 16 (Nat.digitChar d) = some d := by
  have hall : ∀ e : Fin 16, digitIn 16 (Nat.digitChar e.val) = some e.val := by decide
  exact hall ⟨d, hd⟩

theorem digitChar_mem_lowercase {d : Nat} (hd : d < 16) : Nat.digitChar d ∈ "0123456789abcdef".toList := by
  have hall : ∀ e : Fin 16, Nat.digitChar e.val ∈ "0123456789abcdef".toList := by decide
  exact hall ⟨d, hd⟩

@[simp] theorem hexFixed_length (n v : Nat) : (hexFixed n v).length = n := by
  induction n with
  | zero => rfl
  | succ n ih => rw [hexFixed, List.length_cons, ih]

theorem mem_hexFixed_lowercase {n v : Nat} {ch : Char} (h : ch ∈ hexFixed n v) :
    ch ∈ "0123456789abcdef".toList := by
  induction n with
  | zero => cases h
  | succ n ih =>
    obtain rfl | h := List.mem_cons.1 h
    · exact digitChar_mem_lowercase (Nat.mod_lt _ (by decide))
    · exact ih h

/-- Reading `n` digits after `acc` gives the number's remainder below them (R112). -/
theorem numberFrom_hexFixed (n acc v : Nat) : numberFrom 16 acc (hexFixed n v) = some (16 ^ n * acc + v % 16 ^ n) := by
  induction n generalizing acc with
  | zero => simp [hexFixed, numberFrom, Nat.mod_one]
  | succ n ih =>
    have hdigit := digitIn_digitChar (Nat.mod_lt (v / 16 ^ n) (by decide : 0 < 16))
    have hsplit : v % 16 ^ (n + 1) = v % 16 ^ n + 16 ^ n * (v / 16 ^ n % 16) := by rw [pow_succ, Nat.mod_mul]
    simp only [hexFixed, numberFrom, hdigit, ih, hsplit]
    congr 1
    ring

theorem numberFrom_hexFixed_of_lt {n v : Nat} (h : v < 16 ^ n) : numberFrom 16 0 (hexFixed n v) = some v := by
  rw [numberFrom_hexFixed, Nat.mod_eq_of_lt h, Nat.mul_zero, Nat.zero_add]

/-! ### The width of an address -/

/-- R112: the width is 8 or the first above 8 that holds the address, and 16 digits hold every address. -/
theorem hexWidth_spec (a : Addr) :
    8 ≤ hexWidth a ∧ hexWidth a ≤ 16 ∧ a.toNat < 16 ^ hexWidth a ∧
      (8 < hexWidth a → 16 ^ (hexWidth a - 1) ≤ a.toNat) := by
  have hwidths : [8, 9, 10, 11, 12, 13, 14, 15] = List.range' 8 8 := rfl
  have hbound : a.toNat < 16 ^ 16 := a.isLt
  rw [hexWidth, hwidths]
  cases h : (List.range' 8 8).find? fun n => a.toNat < 16 ^ n with
  | none =>
    have hnone := List.find?_eq_none.1 h 15 (by decide)
    exact ⟨by decide, by decide, hbound, fun _ => by simpa using hnone⟩
  | some n =>
    obtain ⟨hfits, hmem, hfirst⟩ := List.find?_range'_eq_some.1 h
    obtain ⟨hle, hlt⟩ := List.mem_range'_1.1 hmem
    refine ⟨hle, by simp only [Option.getD_some]; omega, by simpa using hfits, fun hgt => ?_⟩
    have hbelow := hfirst (n - 1) (Nat.le_sub_one_of_lt hgt) (by omega)
    simpa using hbelow

/-- Settles O46: eight digits hold a word, the width of R112 holds an address, and each digit reads back. -/
theorem lineDigitsReadBack : Obligations.LineDigitsReadBack := by
  refine ⟨fun _ => rfl, fun v => ⟨hexFixed_length 8 _, numberFrom_hexFixed_of_lt v.isLt⟩, fun a => ?_,
    fun v ch => mem_hexFixed_lowercase, fun a ch => mem_hexFixed_lowercase⟩
  obtain ⟨hge, hle, hfits, hleast⟩ := hexWidth_spec a
  rw [hex8p, hexFixed_length]
  exact ⟨numberFrom_hexFixed_of_lt hfits, hge, hle, hleast⟩

end Sys2Proof.Machine
end

section
/-! The host and its buffer (20_memory.md, 43_host_driver.md): words written are read back, the Region of the default
selection, truncation, and which stages write and fault. -/

namespace Sys2Proof.Machine

/-! ### Words written and read back -/

/-- A word is its four bytes, the highest first. -/
theorem append_bytes_of_word (v : Word) :
    (v.extractLsb' 24 8 ++ v.extractLsb' 16 8) ++ (v.extractLsb' 8 8 ++ v.extractLsb' 0 8) = v := by
  have hhigh : v.extractLsb' 24 8 ++ v.extractLsb' 16 8 = v.extractLsb' 16 16 :=
    BitVec.extractLsb'_append_extractLsb'_eq_extractLsb' rfl
  have hlow : v.extractLsb' 8 8 ++ v.extractLsb' 0 8 = v.extractLsb' 0 16 :=
    BitVec.extractLsb'_append_extractLsb'_eq_extractLsb' rfl
  rw [hhigh, hlow]
  exact extract_append_extract (m := 16) (n := 16) v

/-- The four bytes that a word write leaves at its offset (R35). -/
theorem Memory.write32_bytes {m m' : Memory} {off : Nat} {v : Word} (hm : m.wf) (h : m.write32 off v = some m') :
    m'.readByte off = some (v.extractLsb' 0 8) ∧ m'.readByte (off + 1) = some (v.extractLsb' 8 8) ∧
      m'.readByte (off + 2) = some (v.extractLsb' 16 8) ∧ m'.readByte (off + 3) = some (v.extractLsb' 24 8) := by
  obtain ⟨-, -, -, hread⟩ := Memory.write32_spec hm h
  refine ⟨?_, ?_, ?_, ?_⟩ <;> simp [hread]

theorem Memory.read32_write32 {m m' : Memory} {off : Nat} {v : Word} (hm : m.wf) (h : m.write32 off v = some m') :
    m'.read32 off = some v := by
  obtain ⟨h0, h1, h2, h3⟩ := Memory.write32_bytes hm h
  rw [Memory.read32_eq_some h0 h1 h2 h3, append_bytes_of_word]

/-- Settles O48: with room for four bytes the write succeeds, and its bytes and frame are those of `write32_spec`. -/
theorem hostWritesLittleEndian : Obligations.HostWritesLittleEndian := by
  intro m off v hm hroom
  obtain ⟨m', h⟩ := Memory.write32_isSome v hroom
  obtain ⟨-, hsize, hwf, hread⟩ := Memory.write32_spec hm h
  obtain ⟨h0, h1, h2, h3⟩ := Memory.write32_bytes hm h
  refine ⟨m', h, hsize, hwf, h0, h1, h2, h3, Memory.read32_write32 hm h, fun a ha => ?_⟩
  rw [hread, if_neg (by omega)]

theorem Memory.read32_congr {m m' : Memory} {off : Nat}
    (h : ∀ a, off ≤ a → a < off + 4 → m'.readByte a = m.readByte a) : m'.read32 off = m.read32 off := by
  unfold Memory.read32
  rw [h off (by omega) (by omega), h (off + 1) (by omega) (by omega), h (off + 2) (by omega) (by omega),
    h (off + 3) (by omega) (by omega)]

/-- Words written in a run are read back in their order: each stays as the later ones are written above it. -/
theorem Memory.readWords_writeWords {m m' : Memory} {off : Nat} {ws : List Word} (hm : m.wf)
    (h : m.writeWords off ws = some m') : m'.readWords off ws.length = some ws := by
  induction ws generalizing m off with
  | nil => rfl
  | cons w ws ih =>
    obtain ⟨m1, hw, hws⟩ := Option.bind_eq_some_iff.1 h
    obtain ⟨-, -, hwf, -⟩ := Memory.write32_spec hm hw
    obtain ⟨-, -, hframe⟩ := Memory.writeWords_spec hwf hws
    have hfirst : m'.read32 off = some w := by
      rw [Memory.read32_congr fun a _ ha => hframe a (.inl ha), Memory.read32_write32 hm hw]
    rw [List.length_cons, Memory.readWords, hfirst, Option.bind_some, ih hwf hws, Option.map_some]

/-- Settles O55: SPLICE is one run of word writes at `file_offset`. -/
theorem spliceChangesOnlyRegion : Obligations.SpliceChangesOnlyRegion := by
  intro m m' r ws hm h
  obtain ⟨hsize, hwf, hframe⟩ := Memory.writeWords_spec hm h
  exact ⟨hsize, hwf, Memory.readWords_writeWords hm h, hframe⟩

/-! ### The Region of the default selection -/

/-- Segments of size 0 are skipped (R117). -/
theorem firstLoadable_append_cons {before : List Segment} (hbefore : ∀ x ∈ before, x.fileSize = 0) {g : Segment}
    (hg : g.fileSize ≠ 0) (after : List Segment) : firstLoadable (before ++ g :: after) = some g := by
  have hnone : before.find? (fun x => 0 < x.fileSize) = none := (firstLoadable_eq_none_iff before).2 hbefore
  have hpos : 0 < g.fileSize := BitVec.not_le.1 (mt BitVec.le_zero_iff.1 hg)
  rw [firstLoadable, List.find?_append, hnone, Option.none_or]
  exact List.find?_cons_of_pos (decide_eq_true hpos)

/-- Both deltas are multiples of 4, and so is 2^64. -/
theorem add_regionStartDelta_mod_four (a : Addr) (marked : Bool) :
    (a + regionStartDelta marked).toNat % 4 = a.toNat % 4 := by
  rw [BitVec.toNat_add, regionStartDelta_toNat]
  cases marked
  · simp only [Bool.false_eq_true, if_false]; omega
  · simp only [if_true]; omega

/-- Settles O50: the segments before `g` are skipped, and adding a multiple of 4 to both fields keeps their alignment. -/
theorem regionAlignment : Obligations.RegionAlignment := by
  refine ⟨fun marker symbols before after g hbefore hg => ?_, fun g marked => ?_⟩
  · exact locate_of_select (firstLoadable_append_cons hbefore hg after) marker symbols
  · simp only [Region.Aligned, regionOf, add_regionStartDelta_mod_four]

/-! ### READWORDS -/

theorem readRegion_isSome {m : Memory} {r : Region} (h : r.fileOffset.toNat + r.length.toNat ≤ m.size) :
    ∃ ws, readRegion m r = some ws ∧ ws.length = r.length.toNat / 4 ∧
      ∀ i, i < ws.length → m.read32 (r.fileOffset.toNat + 4 * i) = ws[i]? := by
  obtain ⟨ws, hws, hlen⟩ := Memory.readWords_isSome (m := m) (r.length.toNat / 4) (off := r.fileOffset.toNat) (by omega)
  refine ⟨ws, ?_, hlen, fun i hi => Memory.readWords_get hws (hlen ▸ hi)⟩
  have havail : r.available m = true := decide_eq_true h
  rw [readRegion, if_pos havail, hws]

theorem readRegion_eq_none {m : Memory} {r : Region} (h : m.size < r.fileOffset.toNat + r.length.toNat) :
    readRegion m r = none := by
  simp [readRegion, Region.available, h]

theorem driverStep_of_readRegion_eq_none {s : State} {r : Region} (hstage : s.driver.stage = .readWords r)
    (h : readRegion s.driver.buffer r = none) : driverStep s = .fault .truncatedFile := by
  simp [driverStep, hstage, h]

/-- Settles O53, by whether the region ends inside the buffer. -/
theorem truncatedFileFaults : Obligations.TruncatedFileFaults := by
  intro s r hport hstage
  have hfits (h : r.fileOffset.toNat + r.length.toNat ≤ s.driver.buffer.size) :
      ∃ ws, readRegion s.driver.buffer r = some ws ∧ ws.length = r.length.toNat / 4 ∧
        (∀ i, i < ws.length → s.driver.buffer.read32 (r.fileOffset.toNat + 4 * i) = ws[i]?) ∧
        step s = .next (s.withDriver (s.driver.goto (.drive r ws))) := by
    obtain ⟨ws, hws, hlen, hget⟩ := readRegion_isSome h
    exact ⟨ws, hws, hlen, hget, (step_eq_next_iff_hostMove hport).2 (.readWords hstage hws)⟩
  refine ⟨⟨fun hfault => ?_, fun hshort => ?_⟩, hfits⟩
  · by_contra hroom
    obtain ⟨ws, -, -, -, hnext⟩ := hfits (Nat.le_of_not_lt hroom)
    rw [hnext] at hfault
    cases hfault
  · rw [step_nil hport, driverStep_of_readRegion_eq_none hstage (readRegion_eq_none hshort)]

/-! ### What the stages write, and where the host faults -/

theorem HostMove.destination_cases {s t : State} (hmove : HostMove s t) :
    t.driver.destination = s.driver.destination ∨
      s.driver.stage = .write ∧ t.driver.destination = some s.driver.buffer := by
  cases hmove with
  | write hs => exact .inr ⟨hs, rfl⟩
  | _ => exact .inl rfl

theorem HostMove.buffer_cases {s t : State} (hmove : HostMove s t) :
    t.driver.buffer = s.driver.buffer ∨
      (∃ file answer, s.driver.stage = .load file answer ∧ t.driver.buffer = file) ∨
      ∃ r, s.driver.stage = .splice r ∧ spliceRegion s.driver.buffer r s.outlog = some t.driver.buffer := by
  cases hmove with
  | load hs => exact .inr (.inl ⟨_, _, hs, rfl⟩)
  | splice hs hm => exact .inr (.inr ⟨_, hs, hm⟩)
  | _ => exact .inl rfl

theorem HostMove.sink_cases {s t : State} (hmove : HostMove s t) :
    t.driver.sink = s.driver.sink ∨
      s.driver.stage = .report ∧ t.driver.sink = s.driver.sink ++ s.diaglog.map diagLine := by
  cases hmove with
  | report hs => exact .inr ⟨hs, rfl⟩
  | _ => exact .inl rfl

/-- A fault comes from the host, which moves when nothing is presented (R96, R136). -/
theorem port_of_step_eq_fault {s : State} {f : Fault} (h : step s = .fault f) : s.port = [] ∧ driverStep s = .fault f := by
  unfold step at h
  split at h
  · next hport => exact ⟨hport, h⟩
  · cases h
  · exact absurd h (exec_ne_fault _ _ f)

/-- Under the invariant SPLICE has the words of its region and room for them (R138). -/
theorem State.Inv.splice_succeeds {s : State} (hs : s.Inv) (hport : s.port = []) {r : Region}
    (hstage : s.driver.stage = .splice r) :
    s.outlog.length = r.length.toNat / 4 ∧ ∃ m, spliceRegion s.driver.buffer r s.outlog = some m := by
  obtain ⟨-, -, -, hregion⟩ := hs
  obtain ⟨havail, hwords⟩ : r.available s.driver.buffer = true ∧ s.outlog.length = r.length.toNat / 4 := by
    simpa [State.RegionHeld, hstage, hport, wordsAfter] using hregion
  exact ⟨hwords, spliceRegion_isSome havail hwords⟩

/-- Settles O54: the writes of each of the host's moves, and the four stages that can fault, of which the invariant shuts
out SPLICE. -/
theorem bufferAndDestinationWrites : Obligations.BufferAndDestinationWrites := by
  refine ⟨fun s t h => ?_, fun s f h => ?_, fun s f hs h => ?_, fun s r hs hport hstage => ?_⟩
  · by_cases hport : s.port = []
    · have hmove := (step_eq_next_iff_hostMove hport).1 h
      refine ⟨hmove.destination_cases.imp_right fun hw => ⟨hport, hw⟩, ?_, hmove.sink_cases.imp_right fun hr => ⟨hport, hr⟩⟩
      exact hmove.buffer_cases.imp_right (Or.imp (fun hl => ⟨hport, hl⟩) fun hr => ⟨hport, hr⟩)
    · rw [step_keeps_driver hport h]
      exact ⟨.inl rfl, .inl rfl, .inl rfl⟩
  · obtain ⟨hport, hfault⟩ := port_of_step_eq_fault h
    refine ⟨hport, (driverStep_fault_cases hfault).imp_right (Or.imp_right (Or.imp_right ?_))⟩
    rintro ⟨r, hsplice, -⟩
    exact ⟨r, hsplice⟩
  · obtain ⟨hport, hfault⟩ := port_of_step_eq_fault h
    obtain hp | hl | hr | ⟨r, hsplice, hnone⟩ := driverStep_fault_cases hfault
    · exact ⟨hport, .inl hp⟩
    · exact ⟨hport, .inr (.inl hl)⟩
    · exact ⟨hport, .inr (.inr hr)⟩
    · obtain ⟨-, m, hm⟩ := hs.splice_succeeds hport hsplice
      rw [hm] at hnone
      cases hnone
  · obtain ⟨hwords, m, hm⟩ := hs.splice_succeeds hport hstage
    exact ⟨hwords, m, hm, (step_eq_next_iff_hostMove hport).2 (.splice hstage hm)⟩

end Sys2Proof.Machine
end

section
/-! The host's whole run on one image (70_reset_and_hazards.md section 2): its stages up to DRIVE, the block's run of what
DRIVE presents, and the stages from SPLICE on. -/

namespace Sys2Proof.Machine

theorem run_succ_of_hostMove {n : Nat} {s t : State} (hport : s.port = []) (hmove : HostMove s t) :
    run (n + 1) s = run n t :=
  run_succ_next ((step_eq_next_iff_hostMove hport).2 hmove)

/-- The host while the block takes what DRIVE presented of the file's Region. -/
def Driver.driving (d : Driver) (file : Memory) (r : Region) : Driver := { d with stage := .splice r, buffer := file }

/-- Stages (1) to (5) of R154, one step each. -/
theorem run_load_to_drive {s : State} {file : Memory} {symbols : Option (List SymName)} {segs : List Segment} {r : Region}
    {ws : List Word} (hport : s.port = []) (hregion : locate firstLoadable s.cfg.markerName symbols segs = .ok r)
    (hws : readRegion file r = some ws) :
    run 5 (s.withImage file (.parsed symbols segs)) =
      .next ((s.withDriver (s.driver.driving file r)).withPort (driveInputs r ws)) := by
  have hinputs : s.present (driveInputs r ws) = s.withPort (driveInputs r ws) := by
    rw [State.present, hport, List.nil_append, State.withPort]
  calc run 5 (s.withImage file (.parsed symbols segs))
    _ = run 4 (s.withDriver { s.driver with buffer := file, stage := .parse (.parsed symbols segs) }) :=
      run_succ_of_hostMove hport (.load rfl)
    _ = run 3 (s.withDriver { s.driver with buffer := file, stage := .locate symbols segs }) :=
      run_succ_of_hostMove hport (.parse rfl)
    _ = run 2 (s.withDriver { s.driver with buffer := file, stage := .readWords r }) :=
      run_succ_of_hostMove hport (.locate rfl hregion)
    _ = run 1 (s.withDriver { s.driver with buffer := file, stage := .drive r ws }) :=
      run_succ_of_hostMove hport (.readWords rfl hws)
    _ = .next ((s.present (driveInputs r ws)).withDriver (s.driver.driving file r)) :=
      run_succ_of_hostMove hport (.drive rfl)
    _ = .next ((s.withDriver (s.driver.driving file r)).withPort (driveInputs r ws)) := by rw [hinputs]; rfl

/-- The block after it has taken what DRIVE presents (R122). -/
def State.afterDrive (s : State) (r : Region) (ws : List Word) : State :=
  ((s.applyReset.startSequence r.paddr).afterDescrs r.paddr 0 ws).withPort []

theorem run_driveInputs (s : State) (r : Region) (ws : List Word) :
    run (ws.length + 2) (s.withPort (driveInputs r ws)) = .next (s.afterDrive r ws) := by
  rw [driveInputs, run_succ_next (step_withPort_rst s _)]
  have hrun := run_descrambleInputs s.applyReset r.paddr ws []
  rw [List.append_nil] at hrun
  exact hrun

/-- The host when it has written `out` and emitted a line for each record. -/
def Driver.finished (d : Driver) (out : Memory) (records : List DiagRec) : Driver :=
  { stage := .done, buffer := out, destination := some out, sink := d.sink ++ records.map diagLine }

/-- Stages (6) to (8) of R154, one step each. -/
theorem run_splice_to_done {s : State} {r : Region} {out : Memory} (hport : s.port = [])
    (hstage : s.driver.stage = .splice r) (hout : spliceRegion s.driver.buffer r s.outlog = some out) :
    run 3 s = .next (s.withDriver (s.driver.finished out s.diaglog)) :=
  calc run 3 s
    _ = run 2 (s.withDriver { s.driver with buffer := out, stage := .write }) :=
      run_succ_of_hostMove hport (.splice hstage hout)
    _ = run 1 (s.withDriver { s.driver with buffer := out, destination := some out, stage := .report }) :=
      run_succ_of_hostMove hport (.write rfl)
    _ = .next (s.withDriver (s.driver.finished out s.diaglog)) := run_succ_of_hostMove hport (.report rfl)

/-- Settles O56: the three parts of the run, in which SPLICE succeeds because READWORDS read as many words at the same
place. -/
theorem wholeHostRun : Obligations.WholeHostRun := by
  intro s file symbols segs r ws hport hregion hws
  obtain ⟨havail, hlen⟩ := readRegion_eq_some hws
  obtain ⟨out, hout⟩ := spliceRegion_isSome (ws := ws.map (plainw s.cfg)) havail (by rwa [List.length_map])
  have hhost := run_load_to_drive hport hregion hws
  have hblock := run_driveInputs (s.withDriver (s.driver.driving file r)) r ws
  have hend := run_splice_to_done (s := (s.withDriver (s.driver.driving file r)).afterDrive r ws) rfl rfl hout
  have hrun := (run_add hhost).trans ((run_add hblock).trans hend)
  have hsteps : 5 + (ws.length + 2 + 3) = ws.length + 10 := by omega
  rw [hsteps] at hrun
  exact ⟨_, out, hrun, hout, rfl, rfl, rfl, callRecords_pairwise, rfl⟩

end Sys2Proof.Machine
end

section
/-! The taxonomy of conditions (60_exceptions.md): what a step raises, by its outcome. -/

namespace Sys2Proof.Machine

/-! ### What each outcome raises -/

theorem raised_of_fault {s : State} {f : Fault} (h : step s = .fault f) : raised s = [f.cause] := by
  simp [raised, h]

theorem raised_of_refused {s : State} {r : Refusal} (h : step s = .refused r) : raised s = r.cause.toList := by
  simp [raised, h]

theorem raised_of_command {s t : State} {cw : CommandWord} {rest : List PortInput} (h : step s = .next t)
    (hport : s.port = .command cw :: rest) :
    raised s = (raisedGroups (decode cw) s).map fun _ => .unresolvedBitGroup := by
  simp [raised, h, hport]

/-- A step with a next state raises something only in a command (R134). -/
theorem raised_of_next {s t : State} (h : step s = .next t) :
    raised s = [] ∨ ∃ cw rest, s.port = .command cw :: rest ∧
      raised s = (raisedGroups (decode cw) s).map fun _ => .unresolvedBitGroup := by
  cases hport : s.port with
  | nil => exact .inl (by simp [raised, h, hport])
  | cons x rest =>
    cases x with
    | rst => exact .inl (by simp [raised, h, hport])
    | command cw => exact .inr ⟨cw, rest, rfl, raised_of_command h hport⟩

theorem eq_unresolvedBitGroup_of_mem_raised {s t : State} (h : step s = .next t) {c : Cause} (hc : c ∈ raised s) :
    c = .unresolvedBitGroup := by
  obtain hnil | ⟨cw, rest, -, hraised⟩ := raised_of_next h
  · rw [hnil] at hc
    cases hc
  · rw [hraised] at hc
    obtain ⟨j, -, rfl⟩ := List.mem_map.1 hc
    rfl

/-- R136: the host refuses nothing, the rst pin neither, and a command for two reasons only. -/
theorem step_refused_cases {s : State} {r : Refusal} (h : step s = .refused r) :
    r = .baseUnset ∨ r = .reservedCommand := by
  cases hport : s.port with
  | nil => exact absurd ((step_nil hport).symm.trans h) (driverStep_ne_refused s r)
  | cons x rest =>
    cases x with
    | rst =>
      rw [step_rst hport] at h
      cases h
    | command cw =>
      obtain ⟨-, rfl⟩ | ⟨-, -, rfl⟩ := (step_eq_refused_iff hport r).1 h
      · exact .inr rfl
      · exact .inl rfl

/-! ### The columns "fatal" and "side" -/

theorem Fault.cause_columns (f : Fault) : f.cause.fatal = some true ∧ f.cause.side = .host := by
  cases f <;> exact ⟨rfl, rfl⟩

theorem refusal_cause_columns {r : Refusal} (hr : r = .baseUnset ∨ r = .reservedCommand) {c : Cause}
    (hc : c ∈ r.cause.toList) : c.fatal = none ∧ c.side = .model := by
  obtain rfl | rfl := hr
  all_goals
    obtain rfl := List.mem_singleton.1 hc
    exact ⟨rfl, rfl⟩

/-- R130: the two columns of a raised condition say what the outcome of the step is. -/
theorem columns_of_mem_raised {s : State} {c : Cause} (hc : c ∈ raised s) :
    (c.fatal = some true ↔ ∃ f, step s = .fault f) ∧ (c.fatal = none ↔ ∃ r, step s = .refused r) ∧
      (c.side = .host ↔ ∃ f, step s = .fault f) ∧ (c.side = .model ↔ ∃ r, step s = .refused r) ∧
      (c.side = .block ↔ ∃ t, step s = .next t) := by
  cases h : step s with
  | next t =>
    obtain rfl := eq_unresolvedBitGroup_of_mem_raised h hc
    simp [Cause.fatal, Cause.side]
  | fault f =>
    rw [raised_of_fault h, List.mem_singleton] at hc
    obtain ⟨hfatal, hside⟩ := f.cause_columns
    simp [hc, hfatal, hside]
  | refused r =>
    rw [raised_of_refused h] at hc
    obtain ⟨hfatal, hside⟩ := refusal_cause_columns (step_refused_cases h) hc
    simp [hfatal, hside]

/-! ### The groups a DESCR raises -/

theorem raisedGroups_eq_nil_of_ne_descr {i : Instr} (hi : ∀ h w, i ≠ .descr h w) (s : State) : raisedGroups i s = [] := by
  simp [raisedGroups, outPorts_eq_none_of_ne_descr hi s]

theorem exists_descr_of_raised_ne_nil {s t : State} (h : step s = .next t) (hne : raised s ≠ []) :
    ∃ cw rest hi w, s.port = .command cw :: rest ∧ decode cw = .descr hi w := by
  obtain hnil | ⟨cw, rest, hport, hraised⟩ := raised_of_next h
  · exact absurd hnil hne
  · by_contra hno
    refine hne ?_
    rw [hraised, raisedGroups_eq_nil_of_ne_descr (fun hi w hdec => hno ⟨cw, rest, hi, w, hport, hdec⟩), List.map_nil]

theorem raisedGroups_descr {s : State} {b : Addr} (hb : s.base = some b) (hi w : Word) :
    raisedGroups (.descr hi w) s = groups.filter fun j => bit (guw s.cfg w) j.val := by
  rw [raisedGroups, outPorts_descr hb]
  rfl

theorem mem_raisedGroups_descr {s : State} {b : Addr} (hb : s.base = some b) (hi w : Word) (j : Fin 8) :
    j ∈ raisedGroups (.descr hi w) s ↔ laneEntry s.cfg w j = .unresolved := by
  rw [raisedGroups_descr hb, List.mem_filter, bit_guw, ucmp_eq_true]
  exact and_iff_right (mem_groups j)

/-- R134: a DESCR raises nothing exactly when it leaves no record. -/
theorem raisedGroups_descr_eq_nil_iff {s : State} {b : Addr} (hb : s.base = some b) (hi w : Word) :
    raisedGroups (.descr hi w) s = [] ↔ ¬ anyu s.cfg w = true := by
  simp only [List.eq_nil_iff_forall_not_mem, mem_raisedGroups_descr hb, anyu_iff_exists_unresolved, not_exists]

/-- A DESCR with BV = 1: what it raises, and the record it leaves for that. -/
theorem raised_descr {s : State} {cw : CommandWord} {rest : List PortInput} {hi w : Word}
    (hport : s.port = .command cw :: rest) (hdec : decode cw = .descr hi w) (hbv : s.bv = true) :
    ∃ t, step s = .next t ∧ raised s = (raisedGroups (decode cw) s).map (fun _ => .unresolvedBitGroup) ∧
      (∀ j, j ∈ raisedGroups (decode cw) s ↔ laneEntry s.cfg w j = .unresolved) ∧
      (raised s = [] → t.diaglog = s.diaglog) ∧
      (raised s ≠ [] →
        ∃ r, t.diaglog = s.diaglog ++ [r] ∧ (maskToSet r.unresolved).length = 4 * (raised s).length) := by
  obtain ⟨b, hb⟩ := s.bv_eq_true.1 hbv
  have hb' : (s.withPort rest).base = some b := hb
  obtain ⟨t, ht, hlog⟩ := exec_descr_diaglog hb' hi w
  have hstep : step s = .next t := by rw [step_command hport, hdec, ht]
  have hraised := raised_of_command hstep hport
  have hnil : raised s = [] ↔ ¬ anyu s.cfg w = true := by
    rw [hraised, List.map_eq_nil_iff, hdec, raisedGroups_descr_eq_nil_iff hb]
  refine ⟨t, hstep, hraised, fun j => ?_, fun hnone => ?_, fun hsome => ?_⟩
  · rw [hdec, mem_raisedGroups_descr hb]
  · exact hlog.trans (if_neg (hnil.1 hnone))
  · refine ⟨_, hlog.trans (if_pos (not_not.1 (mt hnil.2 hsome))), ?_⟩
    rw [hraised, List.length_map, hdec, raisedGroups_descr hb]
    exact length_maskToSet_unresw s.cfg w

/-- Settles O60: the exit code is above 0 by its form, and each outcome of a step raises what its kind raises. -/
theorem causesRaised : Obligations.CausesRaised := by
  refine ⟨fun start f => ⟨_, rfl, Nat.succ_ne_zero _⟩, fun s => ?_⟩
  exact ⟨raised_of_fault, raised_of_fault, raised_of_fault, raised_of_refused, raised_of_refused,
    fun _ => step_refused_cases, fun _ => columns_of_mem_raised, fun _ => exists_descr_of_raised_ne_nil,
    fun _ _ _ _ => raised_descr⟩

end Sys2Proof.Machine
end
